-- ==== Sys2Proof/Word.lean ====
section
/-! DEFINITION. The widths of the block (00_scope.md R6 to R8): every number is unsigned, bit 0 is the least
significant bit of a word. -/

namespace Sys2Proof

/-- A command word, a register word or a weight: 32 bits (`CMD_BITS`, `REG_BITS`, `WEIGHT_BITS`, R6). -/
abbrev Word := BitVec 32

/-- A symbol, a digit byte, an opcode or an output byte: 8 bits (`SYMBOL_BITS`, R6; R91). -/
abbrev Byte := BitVec 8

/-- The `IMM16` field of a command word (R91). -/
abbrev Half := BitVec 16

/-- A byte offset in the 16 KiB register space, 0x0000 to 0x3FFF (20_memory.md R60). -/
abbrev Offset := BitVec 14

/-- One entry for each of the 256 symbols, symbol 0 first (R6 `ALPHABET_SIZE`). -/
structure ByteTable (α : Type) where
  entries : List α
  size : entries.length = 256
deriving DecidableEq, Repr

/-- The table whose every entry is `v`. -/
def ByteTable.fill {α : Type} (v : α) : ByteTable α := ⟨List.replicate 256 v, List.length_replicate⟩

/-- The symbols 0 to 255 in ascending order, the order of every `for s in 0..255` of the spec. -/
def symbols : List Byte := (List.range 256).map (BitVec.ofNat 8)

end Sys2Proof
end

