-- ==== Sys2Proof/Syntax.lean ====
section
/-! DEFINITION. The commands of the block (30_encoding.md R96) and the assembler's statements (R100, R101). -/

namespace Sys2Proof

/-- The fifteen commands, one constructor per row of the opcode table (R96). An operand has exactly the width of its
field (R91), so every term is a command: nothing of a command is left for a well-formedness check. -/
inductive Instr where
  /-- Clear every weight (R120). -/
  | wclr
  /-- Set a weight from an immediate (R121). -/
  | wsetl (s : Byte) (imm : Half)
  /-- Set the upper half of a weight (R122). -/
  | wseth (s : Byte) (imm : Half)
  /-- Load the queue with one leaf per participating symbol (R144). -/
  | binit
  /-- One greedy merge (R145). -/
  | merge
  /-- Merge until one node remains and take it as the root (R146). -/
  | finish
  /-- BINIT then FINISH (R147). -/
  | build
  /-- Fill the code table from the tree (R181). -/
  | gentab
  /-- Encode one symbol (R200). -/
  | enc (s : Byte)
  /-- Put the cursor at the root (R220). -/
  | dstart
  /-- Decode one digit (R221). -/
  | dec (d : Byte)
  /-- Mark the end of the bit sequence (R222). -/
  | dend
  /-- Do nothing (R250). -/
  | nop
  /-- Soft reset (R251). -/
  | srst
  /-- Clear the recorded error (R252). -/
  | eclr
deriving DecidableEq, Repr

/-- The mnemonic of R96. -/
def Instr.mnemonic : Instr → String
  | .wclr => "WCLR"
  | .wsetl _ _ => "WSETL"
  | .wseth _ _ => "WSETH"
  | .binit => "BINIT"
  | .merge => "MERGE"
  | .finish => "FINISH"
  | .build => "BUILD"
  | .gentab => "GENTAB"
  | .enc _ => "ENC"
  | .dstart => "DSTART"
  | .dec _ => "DEC"
  | .dend => "DEND"
  | .nop => "NOP"
  | .srst => "SRST"
  | .eclr => "ECLR"

/-- An assembler statement (R100) or pseudo-instruction (R101), with its operands as the numbers that were written.
Whether they are in range is checked by `Asm.wf` (WellFormed.lean): "a value out of range is an assembler error, not an
encoding". -/
inductive Asm where
  | wclr
  | wsetl (s imm : Nat)
  | wseth (s imm : Nat)
  | binit
  | merge
  | finish
  | build
  | gentab
  | enc (s : Nat)
  | dstart
  | dec (d : Nat)
  | dend
  | nop
  | srst
  | eclr
  /-- `WSET s, v`: load a 32-bit weight. -/
  | wset (s v : Nat)
  /-- `DEC0`: decode the digit byte 0x30. -/
  | dec0
  /-- `DEC1`: decode the digit byte 0x31. -/
  | dec1
  /-- `ENCSTR "text"`: the text is the list of its bytes. -/
  | encstr (text : List Nat)
  /-- `DECSTR "bits"`: the string is the list of its characters' bytes. -/
  | decstr (bits : List Nat)
  /-- `COMPILE`: build the tree and its code table. -/
  | compile
deriving DecidableEq, Repr

end Sys2Proof
end

