-- ==== Sys2Proof/WellFormed.lean ====
section
/-! DEFINITION. What a command word and an assembler statement must satisfy before they mean a command (30_encoding.md R92
to R94, R96, R98, R100). A term of `Instr` satisfies every check by its type. -/

namespace Sys2Proof

/-- One row of the opcode map (R96). -/
structure OpcodeRow where
  mnemonic : String
  pattern : Word
  mask : Word
deriving DecidableEq, Repr

/-- The opcode map of R96, in the order of the spec's table. -/
def opcodeTable : List OpcodeRow :=
  [⟨"WCLR", 0x10000000#32, 0xFFFFFFFF#32⟩, ⟨"WSETL", 0x11000000#32, 0xFF000000#32⟩,
   ⟨"WSETH", 0x12000000#32, 0xFF000000#32⟩, ⟨"BINIT", 0x20000000#32, 0xFFFFFFFF#32⟩,
   ⟨"MERGE", 0x21000000#32, 0xFFFFFFFF#32⟩, ⟨"FINISH", 0x22000000#32, 0xFFFFFFFF#32⟩,
   ⟨"BUILD", 0x23000000#32, 0xFFFFFFFF#32⟩, ⟨"GENTAB", 0x30000000#32, 0xFFFFFFFF#32⟩] ++
  [⟨"ENC", 0x40000000#32, 0xFF00FFFF#32⟩, ⟨"DSTART", 0x50000000#32, 0xFFFFFFFF#32⟩,
   ⟨"DEC", 0x51000000#32, 0xFF00FFFF#32⟩, ⟨"DEND", 0x52000000#32, 0xFFFFFFFF#32⟩,
   ⟨"NOP", 0x00000000#32, 0xFFFFFFFF#32⟩, ⟨"SRST", 0x01000000#32, 0xFFFFFFFF#32⟩,
   ⟨"ECLR", 0x02000000#32, 0xFFFFFFFF#32⟩]

/-- A word selects a row's command exactly when it matches the row's pattern under the row's mask (R96). -/
def OpcodeRow.selects (r : OpcodeRow) (w : Word) : Bool := (w &&& r.mask) == r.pattern

/-- A legal command word: some row selects it; every other word is an illegal encoding (R98). -/
def wordWellFormed (w : Word) : Bool := opcodeTable.any (·.selects w)

/-- A number that fits the BYTE field (R100: "a number 0..255"). -/
def isByte (n : Nat) : Bool := n ≤ 255

/-- A number that fits the IMM16 field (R100: "a number 0..65535"). -/
def isHalf (n : Nat) : Bool := n ≤ 65535

/-- An assembler statement whose operands are all in range (R100, R101). -/
def Asm.wf : Asm → Bool
  | .wsetl s imm => isByte s && isHalf imm
  | .wseth s imm => isByte s && isHalf imm
  | .enc s => isByte s
  | .dec d => isByte d
  | .wset s v => isByte s && v < 2 ^ 32
  | .encstr text => text.all isByte
  | .decstr bits => bits.all isByte
  | .wclr | .binit | .merge | .finish | .build | .gentab | .dstart | .dend | .nop | .srst | .eclr
  | .dec0 | .dec1 | .compile => true

end Sys2Proof
end

