-- ==== Sys2Proof/Decode.lean ====
section
/-! DEFINITION. Decoding a command word and encoding a command (30_encoding.md R90 to R99). -/

namespace Sys2Proof

/-- Bits 31:24 of a command word, the OPC field (R91). -/
def opcField (w : Word) : Byte := w.extractLsb' 24 8

/-- Bits 23:16 of a command word, the BYTE field (R91). -/
def byteField (w : Word) : Byte := w.extractLsb' 16 8

/-- Bits 15:0 of a command word, the IMM16 field (R91). -/
def immField (w : Word) : Half := w.extractLsb' 0 16

/-- The must-be-zero bits 23:0 of format N (R92). -/
def lowBitsN (w : Word) : BitVec 24 := w.extractLsb' 0 24

/-- Why a word is no command (R98). -/
inductive Illegal where
  /-- OPC is none of the fifteen opcodes of R96. -/
  | unassignedOpcode (opc : Byte)
  /-- OPC is assigned, but a must-be-zero bit of the format is set (R92, R93). -/
  | mustBeZero (opc : Byte)
deriving DecidableEq, Repr

/-- Format N (R92): no operand, bits 23:0 must be zero. -/
def formatN (w : Word) (i : Instr) : Except Illegal Instr :=
  if lowBitsN w = 0#24 then .ok i else .error (.mustBeZero (opcField w))

/-- Format B (R93): a byte operand, bits 15:0 must be zero. -/
def formatB (w : Word) (f : Byte → Instr) : Except Illegal Instr :=
  if immField w = 0#16 then .ok (f (byteField w)) else .error (.mustBeZero (opcField w))

/-- Format W (R94): a symbol and a 16-bit immediate, every value legal. -/
def formatW (w : Word) (f : Byte → Half → Instr) : Except Illegal Instr :=
  .ok (f (byteField w) (immField w))

/-- R97: the decoder, total on every 32-bit word. -/
def decode (w : Word) : Except Illegal Instr :=
  match opcField w with
  | 0x00#8 => formatN w .nop
  | 0x01#8 => formatN w .srst
  | 0x02#8 => formatN w .eclr
  | 0x10#8 => formatN w .wclr
  | 0x11#8 => formatW w .wsetl
  | 0x12#8 => formatW w .wseth
  | 0x20#8 => formatN w .binit
  | 0x21#8 => formatN w .merge
  | 0x22#8 => formatN w .finish
  | 0x23#8 => formatN w .build
  | 0x30#8 => formatN w .gentab
  | 0x40#8 => formatB w .enc
  | 0x50#8 => formatN w .dstart
  | 0x51#8 => formatB w .dec
  | 0x52#8 => formatN w .dend
  | opc => .error (.unassignedOpcode opc)

/-- `{OPC, BYTE, IMM16}` (R91): the OPC field is the most significant. -/
def commandWord (opc byte : Byte) (imm : Half) : Word := opc ++ byte ++ imm

/-- The word of a command (R92 to R94, R96): must-be-zero bits are zero. -/
def encode : Instr → Word
  | .wclr => commandWord 0x10#8 0#8 0#16
  | .wsetl s imm => commandWord 0x11#8 s imm
  | .wseth s imm => commandWord 0x12#8 s imm
  | .binit => commandWord 0x20#8 0#8 0#16
  | .merge => commandWord 0x21#8 0#8 0#16
  | .finish => commandWord 0x22#8 0#8 0#16
  | .build => commandWord 0x23#8 0#8 0#16
  | .gentab => commandWord 0x30#8 0#8 0#16
  | .enc s => commandWord 0x40#8 s 0#16
  | .dstart => commandWord 0x50#8 0#8 0#16
  | .dec d => commandWord 0x51#8 d 0#16
  | .dend => commandWord 0x52#8 0#8 0#16
  | .nop => commandWord 0x00#8 0#8 0#16
  | .srst => commandWord 0x01#8 0#8 0#16
  | .eclr => commandWord 0x02#8 0#8 0#16

/-- The command this decoder reads from a word numbered as the opcode table numbers it: every row has 32 bits, and bit 0
of `w` is bit 0 of the command word (R7). A width above 32 bits is no command (R90). -/
def decodeTableWord (nbits w : Nat) : Option Instr :=
  if nbits ≤ 32 then
    match decode (BitVec.ofNat 32 (w % 2 ^ nbits)) with
    | .ok i => some i
    | .error _ => none
  else none

end Sys2Proof
end

