-- ==== Sys2Proof/Config.lean ====
section
/-! DEFINITION. The parameters of the block that its rules use by name (00_scope.md R6), and the two free values the spec
leaves open (93_implementation_defined.md U1, U3). -/

namespace Sys2Proof.Config

/-- `DIGIT0`: the output and input byte that stands for bit 0 (R6, D9). -/
def digit0 : Byte := 0x30#8

/-- `DIGIT1`: the output and input byte that stands for bit 1 (R6, D9). -/
def digit1 : Byte := 0x31#8

/-- `SINGLE_LEAF_DIGIT`: the one-bit code of a tree whose root is a leaf (R6, D7). -/
def singleLeafDigit : Bool := false

/-- `MAX_LEAVES` and `PQ_CAP` (R6). -/
def maxLeaves : Nat := 256

/-- `NODE_CAP`, the size of the arena (R6). -/
def nodeCap : Nat := 511

/-- `MAX_CODE_LEN` (R6). -/
def maxCodeLen : Nat := 255

/-- FREE VALUE (70_reset_and_hazards.md R304, U1): what the n-th unconstrained draw gives for a register read made while
a command is pending. -/
opaque busyRead : Nat → Word

/-- FREE VALUE (70_reset_and_hazards.md R300, U3): how many of the bytes of the command that a hardware reset cuts short
had been emitted, for the n-th draw; more than the command emits means all of them. -/
opaque cutLength : Nat → Nat

end Sys2Proof.Config
end

