-- ==== Sys2Proof/Machine/State.lean ====
section
/-! DEFINITION. The state of the block (10_state.md R22 to R35), the host beside it (20_memory.md R60, R65, R68), and the
reasons a step can stop. -/

namespace Sys2Proof.Machine

/-- A node of the arena (R24): "tagged variant, two forms". A node index is a position in the arena. The spec gives it 9
bits; here it is a number, and every register that shows one takes its low 9 bits. That an index a run can hold is below
511 is a claim about the invariant (Safety.lean, R152). -/
inductive Node where
  /-- `Leaf(sym, w)`. -/
  | leaf (sym : Byte) (w : Word)
  /-- `Internal(w, c0, c1)`: `c0` is child 0, selected by bit 0; `c1` is child 1, selected by bit 1. -/
  | internal (w : Word) (c0 c1 : Nat)
deriving DecidableEq, Repr

/-- The tree state `tstate` with what is meaningful only in it: `root` (R29) and `cursor` (R31) are "valid exactly when
`tstate = READY`", so they are held by the READY state and by no other. -/
inductive TreeState where
  /-- NONE = 0: no build begun since reset or SRST. -/
  | tNone
  /-- BUILDING = 1: BINIT has run, merging is not finished. -/
  | tBuilding
  /-- READY = 2: a tree exists, with its root and the decoder's cursor. -/
  | tReady (root cursor : Nat)
  /-- EMPTY = 3: a build finished with zero participating symbols. -/
  | tEmpty
deriving DecidableEq, Repr

/-- The width of a host access to the register space (R65). -/
inductive AccessWidth where
  | byte
  | half
  | word
deriving DecidableEq, Repr

/-- What the host can do to the block: a write or a read of the register space (R60), or asserting the reset input
(R300). -/
inductive HostAct where
  | write (width : AccessWidth) (off : Offset) (data : Word)
  | read (width : AccessWidth) (off : Offset)
  | reset
deriving DecidableEq, Repr

/-- One act of the host with the moment it reaches the block. A polled act waits until the block is not busy (the host has
read BUSY = 0, R304); an act that is not polled reaches the block at once, even while a command is pending. -/
structure HostReq where
  polled : Bool
  act : HostAct
deriving DecidableEq, Repr

/-- The errors a command can raise (60_exceptions.md R271). -/
inductive HufError where
  | emptyQueue
  | unknownSymbol
  | invalidBit
  | truncatedStream
  | weightOverflow
  | sequenceError
  | noTree
  | illegalCommand
deriving DecidableEq, Repr

/-- The whole state: the record of R22, the output stream (R34), and, last, the host's side of the interfaces, which is
the model's own. -/
structure State where
  /-- `weight[s]` (R23). -/
  weight : ByteTable Word
  /-- The node arena (R25). -/
  node : List Node
  /-- The leaf count (R35). -/
  nleaves : Nat
  /-- The priority queue, front first (R27). -/
  pq : List Nat
  /-- `tstate` (R28) with `root` (R29) and `cursor` (R31). -/
  tstate : TreeState
  /-- `code[s]` (R30), element 0 first; `code_len[s]` is the length of `code[s]`. -/
  code : ByteTable (List Bool)
  /-- `table_valid` (R30). -/
  tableValid : Bool
  /-- `dec_done` (R31). -/
  decDone : Bool
  /-- `err_code` (R32). -/
  errCode : BitVec 4
  /-- `err_opc` (R32). -/
  errOpc : Byte
  /-- `err_byte` (R32). -/
  errByte : Byte
  /-- The command the host has written and the block has not completed (R33). -/
  pending : Option Word
  /-- The output stream, first byte first (R34). -/
  out : List Byte
  /-- The host's acts that have not yet reached the block, the next one first (the model's own). -/
  host : List HostReq
  /-- What the host's reads have returned, oldest first (the model's own). -/
  replies : List Word
  /-- How many free values have been drawn (the model's own). -/
  draws : Nat
deriving DecidableEq, Repr

/-- Reasons for a fault. Each is raised only in a state that no run from reset reaches (R26, R221), so each is safe. -/
inductive Fault where
  /-- DEC or GENTAB follows a node index that is not in the arena (excluded by R26). Safe. -/
  | danglingIndex
  /-- DEC finds the cursor on a leaf of a tree whose root is internal ("cursor is always internal here", R221). Safe. -/
  | cursorAtLeaf
  /-- GENTAB descends further than the arena has nodes: the child links do not descend (excluded by R26 (a)). Safe. -/
  | linksDoNotDescend
deriving DecidableEq, Repr

/-- Reasons for a refusal. -/
inductive Refusal where
  /-- A command that has no meaning yet: no arm of `exec` answers with it. Safe. -/
  | notModelled (mnemonic : String)
  /-- A host access that is not a 32-bit access at a 4-byte-aligned offset: "not admitted … the host access is refused"
  (R65, U2). Raised by the host's turn of a step. Safe. -/
  | accessNotAdmitted
deriving DecidableEq, Repr

/-- What every meaning and every step answers. -/
abbrev Outcome := Host.Outcome State Fault Refusal

/-- The block right after reset (R22, R300, R301): "every state element resets to zero or empty". No byte has been emitted
(R34), and the host has done nothing. -/
def State.reset : State where
  weight := ByteTable.fill 0#32
  node := []
  nleaves := 0
  pq := []
  tstate := .tNone
  code := ByteTable.fill []
  tableValid := false
  decDone := false
  errCode := 0#4
  errOpc := 0#8
  errByte := 0#8
  pending := none
  out := []
  host := []
  replies := []
  draws := 0

end Sys2Proof.Machine
end

