-- ==== Sys2Proof/Machine/Ops.lean ====
section
/-! DEFINITION. The named operations the meanings are built from: the tables, the arena, the priority queue (41_tree.md
R140 to R143), the output stream (20_memory.md R66), raising an error (60_exceptions.md R272) and clearing it (45_control.md
R252). -/

namespace Sys2Proof.Machine

/-! ### Tables of 256 entries -/

/-- Read the entry of symbol `x`. -/
def readTable {α : Type} (t : ByteTable α) (x : Byte) : α := t.entries[x.toNat]'(t.size ▸ x.isLt)

/-- Write the entry of symbol `x`. -/
def writeTable {α : Type} (t : ByteTable α) (x : Byte) (v : α) : ByteTable α :=
  ⟨t.entries.set x.toNat v, List.length_set.trans t.size⟩

/-- The weight table after WCLR and after reset: every weight 0 (R23, R120). -/
def zeroWeights : ByteTable Word := ByteTable.fill 0#32

/-- The code table with no entry: every `code_len[s] = 0`, every `code[s] = []` (R30). -/
def emptyTable : ByteTable (List Bool) := ByteTable.fill []

/-- `weight[s]` (R23). -/
def State.weightOf (s : State) (x : Byte) : Word := readTable s.weight x

/-- `weight[s] <- v` (R23). -/
def State.setWeight (s : State) (x : Byte) (v : Word) : State := { s with weight := writeTable s.weight x v }

/-- `code[s]` (R30). -/
def State.codeOf (s : State) (x : Byte) : List Bool := readTable s.code x

/-- `code_len[s]`, the length of `code[s]` (R22: `len(code[s]) = code_len[s]`); 0 means "no entry" (R30). -/
def State.codeLen (s : State) (x : Byte) : Nat := (s.codeOf x).length

/-! ### The tree state -/

/-- `root`, where it is valid (R29). -/
def State.root (s : State) : Option Nat :=
  match s.tstate with
  | .tReady r _ => some r
  | .tNone | .tBuilding | .tEmpty => none

/-- `cursor`, where it is valid (R31). -/
def State.cursor (s : State) : Option Nat :=
  match s.tstate with
  | .tReady _ c => some c
  | .tNone | .tBuilding | .tEmpty => none

/-! ### The arena -/

/-- The weight a node holds, of either form (R140). -/
def Node.weight : Node → Word
  | .leaf _ w => w
  | .internal w _ _ => w

/-- `wt(i)` (R140). An index beyond the arena, which no run holds, has the weight 0 that its NODE_W register reads
(R42). -/
def wt (node : List Node) (i : Nat) : Word :=
  match node[i]? with
  | some n => n.weight
  | none => 0#32

/-- The child a bit selects: bit 0 selects child 0, bit 1 selects child 1 (R24, R180, D6). -/
def childOf (b : Bool) (c0 c1 : Nat) : Nat := if b then c1 else c0

/-! ### The priority queue -/

/-- `insert_at(xs, k, v)` (00_scope.md R9). -/
def insertAt {α : Type} (xs : List α) (k : Nat) (v : α) : List α := xs.take k ++ [v] ++ xs.drop k

/-- `pq_insert(x)` (R141): after every entry whose weight is less than or equal to that of `x`. -/
def pqInsert (node : List Node) (pq : List Nat) (x : Nat) : List Nat :=
  insertAt pq (pq.countP fun j => wt node j ≤ wt node x) x

/-- `pq_extract_min()` (R142): the front entry and the queue without it; none for the empty queue, where it "fails with
`EmptyQueue`". -/
def pqExtractMin : List Nat → Option (Nat × List Nat)
  | [] => none
  | x :: rest => some (x, rest)

/-- The exact sum of two weights, in 33 bits (R143). -/
def exactSum (a b : Word) : BitVec 33 := a.setWidth 33 + b.setWidth 33

/-- `merge_one()` (R143). Both checks come before any change, so an error carries no state. -/
def mergeOne (s : State) : Except HufError State :=
  match pqExtractMin s.pq with
  | none => .error .emptyQueue
  | some (a, rest) =>
    match pqExtractMin rest with
    | none => .error .emptyQueue
    | some (b, rest) =>
      let sum := exactSum (wt s.node a) (wt s.node b)
      if 2 ^ 32 ≤ sum.toNat then .error .weightOverflow
      else
        let node := s.node ++ [.internal (sum.setWidth 32) a b]
        .ok { s with node := node, pq := pqInsert node rest s.node.length }

/-- The merge loop of FINISH (R146): `while len(pq) > 1: merge_one()`. Each merge leaves the queue one entry shorter, so
`fuel` need be no more than the queue's length. An error carries the state at the raise: earlier merges stand. -/
def mergeLoop : Nat → State → Except (HufError × State) State
  | 0, s => .ok s
  | fuel + 1, s =>
    if 1 < s.pq.length then
      match mergeOne s with
      | .ok t => mergeLoop fuel t
      | .error e => .error (e, s)
    else .ok s

/-- One turn of BINIT's loop (R144): a symbol with a positive weight gets a leaf, which is put in the queue. -/
def loadLeaf (s : State) (x : Byte) : State :=
  let w := s.weightOf x
  if 0#32 < w then
    let node := s.node ++ [.leaf x w]
    { s with node := node, pq := pqInsert node s.pq s.node.length, nleaves := s.nleaves + 1 }
  else s

/-- The pseudocode of BINIT (R144). -/
def loadQueue (s : State) : State :=
  let t := symbols.foldl loadLeaf { s with node := [], pq := [], nleaves := 0 }
  { t with tstate := .tBuilding, decDone := false, code := emptyTable, tableValid := false }

/-! ### The code-table generator -/

/-- `visit(x, p)` (R181): depth first, child 0 before child 1. `fuel` bounds the depth; a tree of the arena is no deeper
than the arena has nodes. -/
def visit (node : List Node) : Nat → Nat → List Bool → ByteTable (List Bool) → Except Fault (ByteTable (List Bool))
  | 0, _, _, _ => .error .linksDoNotDescend
  | fuel + 1, x, p, table =>
    match node[x]? with
    | none => .error .danglingIndex
    | some (.leaf sym _) => .ok (writeTable table sym p)
    | some (.internal _ c0 c1) =>
      match visit node fuel c0 (p ++ [false]) table with
      | .error f => .error f
      | .ok table' => visit node fuel c1 (p ++ [true]) table'

/-- The table GENTAB makes of the tree with this root (R180, R181). -/
def treeTable (node : List Node) (root : Nat) : Except Fault (ByteTable (List Bool)) :=
  match node[root]? with
  | none => .error .danglingIndex
  | some (.leaf sym _) => .ok (writeTable emptyTable sym [Config.singleLeafDigit])
  | some (.internal _ _ _) => visit node node.length root [] emptyTable

/-! ### The output stream -/

/-- `emit(b)` for each byte in turn (R66). -/
def State.emit (s : State) (bytes : List Byte) : State := { s with out := s.out ++ bytes }

/-! ### Errors -/

/-- ERRINFO.CODE (R271). -/
def HufError.code : HufError → BitVec 4
  | .emptyQueue => 1#4
  | .unknownSymbol => 2#4
  | .invalidBit => 3#4
  | .truncatedStream => 4#4
  | .weightOverflow => 5#4
  | .sequenceError => 6#4
  | .noTree => 7#4
  | .illegalCommand => 8#4

/-- The record `raise` makes while word `w` is performed (R272). -/
def State.recordError (s : State) (e : HufError) (w : Word) : State :=
  { s with errCode := e.code, errOpc := opcField w, errByte := byteField w }

/-- `raise E()` while performing word `w` (R272): the error is recorded and the command ends. What the command did before
stands in `s` (R275). -/
def raise (e : HufError) (w : Word) (s : State) : Outcome := .next (s.recordError e w)

/-- Leaving the error state (R252, R276): the record is cleared and nothing else. -/
def State.clearError (s : State) : State := { s with errCode := 0#4, errOpc := 0#8, errByte := 0#8 }

/-! ### Reset -/

/-- Every element of R22 other than `pending` at its reset value (R251, R300). The output stream is not touched (R34), nor
is the host's side. -/
def State.clearBlock (s : State) : State :=
  { State.reset with pending := s.pending, out := s.out, host := s.host, replies := s.replies, draws := s.draws }

end Sys2Proof.Machine
end

