-- ==== Sys2Proof/Machine/CodeTable.lean ====
section
/-! DEFINITION. The code-table generator (42_codetable.md). -/

namespace Sys2Proof.Machine

/-- GENTAB (R181). -/
def execGentab (s : State) : Outcome :=
  match s.tstate with
  | .tReady root _ =>
    match treeTable s.node root with
    | .ok table => .next { s with code := table, tableValid := true }
    | .error f => .fault f
  | .tEmpty => .next { s with code := emptyTable, tableValid := true }
  | .tNone | .tBuilding => raise .sequenceError (encode .gentab) s

end Sys2Proof.Machine
end

