-- ==== Sys2Proof/Machine/Control.lean ====
section
/-! DEFINITION. The control commands (45_control.md). -/

namespace Sys2Proof.Machine

/-- NOP (R250). -/
def execNop (s : State) : Outcome := .next s

/-- SRST (R251). -/
def execSrst (s : State) : Outcome := .next s.clearBlock

/-- ECLR (R252). -/
def execEclr (s : State) : Outcome := .next s.clearError

end Sys2Proof.Machine
end

