-- ==== Sys2Proof/Machine/Operands.lean ====
section
/-! DEFINITION. The operand forms of the commands (30_encoding.md R95) and the digits of a bit sequence (20_memory.md R66,
44_decoder.md R221). -/

namespace Sys2Proof.Machine

/-- The weight WSETL writes: `zext_32(imm)` (R95, R121). -/
def lowWeight (imm : Half) : Word := imm.setWidth 32

/-- The weight WSETH writes: the immediate in bits 31:16, the old weight's bits 15:0 kept (R95, R122). -/
def highWeight (imm : Half) (old : Word) : Word := imm ++ old.extractLsb' 0 16

/-- The bit a digit byte stands for; none for a byte that is neither digit, which is InvalidBit (R221). -/
def bitOfDigit (d : Byte) : Option Bool :=
  if d = Config.digit0 then some false else if d = Config.digit1 then some true else none

/-- The digit byte of a bit (R66, R200): 0x30 for bit 0 and 0x31 for bit 1. -/
def digitOfBit (b : Bool) : Byte := if b then Config.digit1 else Config.digit0

end Sys2Proof.Machine
end

