-- ==== Sys2Proof/Machine/Decoder.lean ====
section
/-! DEFINITION. The bit-stream decoder (44_decoder.md). -/

namespace Sys2Proof.Machine

/-- DSTART (R220). -/
def execDstart (s : State) : Outcome :=
  match s.tstate with
  | .tReady root _ => .next { s with tstate := .tReady root root, decDone := false }
  | .tEmpty => .next { s with decDone := false }
  | .tNone | .tBuilding => raise .sequenceError (encode .dstart) s

/-- The walk of DEC (R221) for bit `b` in a READY tree, once `dec_done` is cleared. -/
def walkBit (b : Bool) (root cursor : Nat) (s : State) : Outcome :=
  match s.node[root]? with
  | none => .fault .danglingIndex
  | some (.leaf sym _) => .next (s.emit [sym])
  | some (.internal _ _ _) =>
    match s.node[cursor]? with
    | none => .fault .danglingIndex
    | some (.leaf _ _) => .fault .cursorAtLeaf
    | some (.internal _ c0 c1) =>
      match s.node[childOf b c0 c1]? with
      | none => .fault .danglingIndex
      | some (.leaf sym _) => .next (({ s with tstate := .tReady root root } : State).emit [sym])
      | some (.internal _ _ _) => .next { s with tstate := .tReady root (childOf b c0 c1) }

/-- DEC (R221). -/
def execDec (d : Byte) (s : State) : Outcome :=
  match s.tstate with
  | .tReady root cursor =>
    match bitOfDigit d with
    | none => raise .invalidBit (encode (.dec d)) s
    | some b => walkBit b root cursor { s with decDone := false }
  | .tNone | .tBuilding | .tEmpty => raise .noTree (encode (.dec d)) s

/-- DEND (R222). -/
def execDend (s : State) : Outcome :=
  match s.tstate with
  | .tReady root cursor =>
    if cursor = root then .next { s with decDone := true }
    else raise .truncatedStream (encode .dend) s
  | .tEmpty => .next { s with decDone := true }
  | .tNone | .tBuilding => raise .sequenceError (encode .dend) s

end Sys2Proof.Machine
end

