-- ==== Sys2Proof/Machine/Encoder.lean ====
section
/-! DEFINITION. The bit-stream encoder (43_encoder.md). -/

namespace Sys2Proof.Machine

/-- ENC (R200): one digit byte per bit of the symbol's code. -/
def execEnc (x : Byte) (s : State) : Outcome :=
  if s.codeLen x = 0 then raise .unknownSymbol (encode (.enc x)) s
  else .next (s.emit ((s.codeOf x).map digitOfBit))

end Sys2Proof.Machine
end

