-- ==== Sys2Proof/Machine/Tree.lean ====
section
/-! DEFINITION. The tree-builder commands (41_tree.md). -/

namespace Sys2Proof.Machine

/-- BINIT (R144). -/
def execBinit (s : State) : Outcome := .next (loadQueue s)

/-- MERGE (R145). -/
def execMerge (s : State) : Outcome :=
  match mergeOne s with
  | .ok t => .next t
  | .error e => raise e (encode .merge) s

/-- The pseudocode of FINISH (R146), performed by the command whose word is `w`. -/
def finishTree (w : Word) (s : State) : Outcome :=
  match s.tstate with
  | .tBuilding =>
    match mergeLoop s.pq.length s with
    | .error (e, t) => raise e w t
    | .ok t =>
      match pqExtractMin t.pq with
      | some (root, rest) => .next { t with pq := rest, tstate := .tReady root root }
      | none => .next { t with tstate := .tEmpty }
  | .tNone | .tReady _ _ | .tEmpty => raise .sequenceError w s

/-- FINISH (R146). -/
def execFinish (s : State) : Outcome := finishTree (encode .finish) s

/-- BUILD (R147): BINIT, then FINISH, as one command. -/
def execBuild (s : State) : Outcome := finishTree (encode .build) (loadQueue s)

end Sys2Proof.Machine
end

