-- ==== Sys2Proof/Machine/Weights.lean ====
section
/-! DEFINITION. The weight-table commands (40_weights.md). -/

namespace Sys2Proof.Machine

/-- WCLR (R120). -/
def execWclr (s : State) : Outcome := .next { s with weight := zeroWeights }

/-- WSETL (R121). -/
def execWsetl (x : Byte) (imm : Half) (s : State) : Outcome := .next (s.setWeight x (lowWeight imm))

/-- WSETH (R122). -/
def execWseth (x : Byte) (imm : Half) (s : State) : Outcome :=
  .next (s.setWeight x (highWeight imm (s.weightOf x)))

end Sys2Proof.Machine
end

