-- ==== Sys2Proof/Machine/Dispatch.lean ====
section
/-! DEFINITION. One arm per command: the meaning of each (30_encoding.md R96). -/

namespace Sys2Proof.Machine

def exec (i : Instr) (s : State) : Host.Outcome State Fault Refusal :=
  match i with
  | .wclr => Sys2Proof.Machine.execWclr s
  | .wsetl x imm => Sys2Proof.Machine.execWsetl x imm s
  | .wseth x imm => Sys2Proof.Machine.execWseth x imm s
  | .binit => Sys2Proof.Machine.execBinit s
  | .merge => Sys2Proof.Machine.execMerge s
  | .finish => Sys2Proof.Machine.execFinish s
  | .build => Sys2Proof.Machine.execBuild s
  | .gentab => Sys2Proof.Machine.execGentab s
  | .enc x => Sys2Proof.Machine.execEnc x s
  | .dstart => Sys2Proof.Machine.execDstart s
  | .dec d => Sys2Proof.Machine.execDec d s
  | .dend => Sys2Proof.Machine.execDend s
  | .nop => Sys2Proof.Machine.execNop s
  | .srst => Sys2Proof.Machine.execSrst s
  | .eclr => Sys2Proof.Machine.execEclr s

end Sys2Proof.Machine
end

