-- ==== Sys2Proof/Machine/Flags.lean ====
section
/-! DEFINITION. The status flags (10_state.md R48) and the STATUS register (R36). The block has no arithmetic condition
codes. -/

namespace Sys2Proof.Machine

/-- The encoding of the tree state (R28). -/
def TreeState.bits : TreeState → BitVec 2
  | .tNone => 0#2
  | .tBuilding => 1#2
  | .tReady _ _ => 2#2
  | .tEmpty => 3#2

/-- BUSY: a command is pending (R33, R36). -/
def State.busy (s : State) : Bool := s.pending.isSome

/-- AT_ROOT: `tstate = READY` and `cursor = root` (R36). -/
def State.atRoot (s : State) : Bool :=
  match s.tstate with
  | .tReady r c => c == r
  | .tNone | .tBuilding | .tEmpty => false

/-- ERR: an error is pending (R36). -/
def State.err (s : State) : Bool := s.errCode != 0#4

/-- A register field whose lowest bit is bit `lo`; the bits of no field read 0 (10_state.md section 4). -/
def field {n : Nat} (lo : Nat) (v : BitVec n) : Word := v.setWidth 32 <<< lo

/-- STATUS (R36). -/
def State.statusWord (s : State) : Word :=
  field 0 (BitVec.ofBool s.busy) ||| field 1 s.tstate.bits ||| field 3 (BitVec.ofBool s.tableValid) |||
    field 4 (BitVec.ofBool s.decDone) ||| field 5 (BitVec.ofBool s.atRoot) ||| field 6 (BitVec.ofBool s.err) |||
    field 16 (BitVec.ofNat 9 s.pq.length)

end Sys2Proof.Machine
end

