-- ==== Sys2Proof/Machine/Registers.lean ====
section
/-! DEFINITION. The register space the host reads (10_state.md R36 to R47, 20_memory.md R60 to R63). Every register is a
view of the state: none holds a value of its own. -/

namespace Sys2Proof.Machine

/-- ERRINFO (R37). -/
def State.errInfoWord (s : State) : Word := field 0 s.errCode ||| field 8 s.errOpc ||| field 16 s.errByte

/-- TREEINFO (R38). -/
def State.treeInfoWord (s : State) : Word :=
  field 0 (BitVec.ofNat 9 s.nleaves) ||| field 16 (BitVec.ofNat 9 s.node.length)

/-- A register that shows a node index with VALID in bit 31; 0 where there is none (R39, R40, R44). -/
def indexWord : Option Nat → Word
  | some i => field 0 (BitVec.ofNat 9 i) ||| field 31 1#1
  | none => 0#32

/-- ROOT (R39). -/
def State.rootWord (s : State) : Word := indexWord s.root

/-- CURSOR (R40). -/
def State.cursorWord (s : State) : Word := indexWord s.cursor

/-- NODE_D for a node (R43); 0 where there is none. -/
def nodeDWord : Option Node → Word
  | some (.leaf sym _) => field 0 (sym.setWidth 9) ||| field 31 1#1
  | some (.internal _ c0 c1) =>
    field 0 (BitVec.ofNat 9 c0) ||| field 16 (BitVec.ofNat 9 c1) ||| field 30 1#1 ||| field 31 1#1
  | none => 0#32

/-- CODE_LEN (R45). -/
def State.codeLenWord (s : State) (x : Byte) : Word := field 0 (BitVec.ofNat 8 (s.codeLen x))

/-- CODE_BITS word `j` (R46): bit `t` is code digit `32·j + t`, and 0 beyond the code. -/
def State.codeBitsWord (s : State) (x : Byte) (j : Nat) : Word :=
  (BitVec.ofBoolListLE (((s.codeOf x).drop (32 * j)).take 32)).setWidth 32

/-- An access the block admits: 32 bits wide, at an offset that is a multiple of 4 (R65). -/
def admitted (width : AccessWidth) (off : Offset) : Bool := width == .word && off.toNat % 4 == 0

/-- `RegRead(off)` when the block is not busy (R61, R62): the register at a 4-byte-aligned offset. CMD and the reserved
offsets read 0 (R47, R62). -/
def State.regRead (s : State) (off : Offset) : Word :=
  let n := off.toNat
  if n < 0x0004 then 0#32
  else if n < 0x0008 then s.statusWord
  else if n < 0x000C then s.errInfoWord
  else if n < 0x0010 then s.treeInfoWord
  else if n < 0x0014 then s.rootWord
  else if n < 0x0018 then s.cursorWord
  else if n < 0x0400 then 0#32
  else if n < 0x0800 then s.weightOf (BitVec.ofNat 8 ((n - 0x0400) / 4))
  else if n < 0x1000 then wt s.node ((n - 0x0800) / 4)
  else if n < 0x1800 then nodeDWord s.node[(n - 0x1000) / 4]?
  else if n < 0x1C00 then indexWord s.pq[(n - 0x1800) / 4]?
  else if n < 0x2000 then s.codeLenWord (BitVec.ofNat 8 ((n - 0x1C00) / 4))
  else s.codeBitsWord (BitVec.ofNat 8 ((n - 0x2000) / 32)) ((n - 0x2000) % 32 / 4)

/-- What a read gives while a command is pending (R304, U1), for an unconstrained draw `v`: bit 0 of STATUS is reliable,
everything else is the draw. -/
def busyReply (off : Offset) (v : Word) : Word := if off.toNat = 0x0004 then v ||| 1#32 else v

end Sys2Proof.Machine
end

