-- ==== Sys2Proof/Machine/Perform.lean ====
section
/-! DEFINITION. Performing a command word, and the host's acts (20_memory.md R60 to R68, 60_exceptions.md R273, R274,
70_reset_and_hazards.md R300, R304, R305). -/

namespace Sys2Proof.Machine

/-- The three words that are performed even while an error is pending: NOP, SRST and ECLR, exactly (R273). -/
def passesGate (w : Word) : Bool := w == 0x00000000#32 || w == 0x01000000#32 || w == 0x02000000#32

/-- Perform a command word in a state where it is no longer pending (R64): the pending-error gate first (R273, R274 (1)),
then decoding (R97, R274 (2)), then the command's own rule. -/
def perform (w : Word) (s : State) : Outcome :=
  if s.err && !passesGate w then .next s
  else
    match decode w with
    | .error _ => raise .illegalCommand w s
    | .ok i => exec i s

/-- The bytes a command word would emit in a state; none where it does not complete. -/
def emittedBy (w : Word) (s : State) : List Byte :=
  match perform w s with
  | .next t => t.out.drop s.out.length
  | .fault _ | .refused _ => []

/-- The reset input is asserted (R300): everything but the output stream is reset, and of the command that is cut short
some prefix of its output, which the spec leaves open, has been emitted. -/
def hardReset (s : State) : State :=
  match s.pending with
  | none => s.clearBlock
  | some w =>
    let bytes := (emittedBy w { s with pending := none }).take (Config.cutLength s.draws)
    { s.clearBlock with pending := none, out := s.out ++ bytes, draws := s.draws + 1 }

/-- A read of an admitted offset: the register's value, or an unconstrained draw while a command is pending (R63, R304).
The block is not changed: the host has one more reply. -/
def hostRead (off : Offset) (s : State) : State :=
  if s.busy then
    { s with replies := s.replies ++ [busyReply off (Config.busyRead s.draws)], draws := s.draws + 1 }
  else { s with replies := s.replies ++ [s.regRead off] }

/-- A write to an admitted offset: a write to CMD issues the word (R47), any other write is ignored (R62). -/
def hostWrite (off : Offset) (data : Word) (s : State) : State :=
  if off.toNat = 0 then { s with pending := some data } else s

/-- An act of the host reaches the block. -/
def hostAct (a : HostAct) (s : State) : Outcome :=
  match a with
  | .write width off data => if admitted width off then .next (hostWrite off data s) else .refused .accessNotAdmitted
  | .read width off => if admitted width off then .next (hostRead off s) else .refused .accessNotAdmitted
  | .reset => .next (hardReset s)

/-- A write that issues a command. It is held by the port while a command is pending (R33, R305). -/
def HostAct.isCommand : HostAct → Bool
  | .write width off _ => admitted width off && off.toNat == 0
  | .read _ _ | .reset => false

/-- Whether a request of the host must wait for the pending command: a command write always does (R305), any other act
when the host polls BUSY first (R304). -/
def HostReq.waits (r : HostReq) : Bool := r.polled || r.act.isCommand

/-- The host's next act, if it is the host's turn: always when no command is pending; while one is pending, when the
host's next act does not wait for it. That an act behind a held write to CMD waits with it, a reset among them, is the
model's DESIGN CHOICE (log entry 17). -/
def State.hostTurn (s : State) : Option (HostAct × List HostReq) :=
  match s.host with
  | [] => none
  | r :: rest => if s.busy && r.waits then none else some (r.act, rest)

/-- The block's turn: it completes the pending command in one atomic step (R33, R64), or is idle (R285). -/
def blockTurn (s : State) : Outcome :=
  match s.pending with
  | some w => perform w { s with pending := none }
  | none => .next s

/-- The host's next act, if any, made to wait for the pending command. -/
def deferHost : List HostReq → List HostReq
  | [] => []
  | r :: rest => { r with polled := true } :: rest

/-- A command word written and not yet completed, with the block next to move. -/
def State.withPending (s : State) (w : Word) : State := { s with pending := some w, host := deferHost s.host }

end Sys2Proof.Machine
end

