-- ==== Sys2Proof/Machine/Step.lean ====
section
/-! DEFINITION. One step of the block and its host (20_memory.md R64, R68; 70_reset_and_hazards.md R305). -/

namespace Sys2Proof.Machine

/-- One step: the host's next act reaches the block when it is the host's turn, else the block takes its own turn. -/
def step (s : State) : Host.Outcome State Fault Refusal :=
  match s.hostTurn with
  | some (a, rest) => hostAct a { s with host := rest }
  | none => blockTurn s

/-- The command word whose bits are `w` (`nbits` of them, the rest 0) as the pending command, which the next step
performs. -/
def State.withFetchWord (s : State) (nbits w : Nat) : State := s.withPending (BitVec.ofNat 32 (w % 2 ^ nbits))

end Sys2Proof.Machine
end

