-- ==== Sys2Proof/Machine/Assembler.lean ====
section
/-! DEFINITION. The assembler (30_encoding.md R100, R101): a statement's commands, and a line of text's statement. The
block sees only the words this gives. A text is the list of its characters. -/

namespace Sys2Proof.Machine

/-! ### Statements and pseudo-instructions -/

/-- The commands of `WSET s, v` (R101): WSETL with the low half, then WSETH only if the high half is not 0. -/
def expandWset (s v : Nat) : List Instr :=
  .wsetl (BitVec.ofNat 8 s) (BitVec.ofNat 16 v) ::
    if v / 65536 = 0 then [] else [.wseth (BitVec.ofNat 8 s) (BitVec.ofNat 16 (v / 65536))]

/-- The commands a statement stands for (R100, R101). -/
def expandAsm : Asm → List Instr
  | .wclr => [.wclr]
  | .wsetl s imm => [.wsetl (BitVec.ofNat 8 s) (BitVec.ofNat 16 imm)]
  | .wseth s imm => [.wseth (BitVec.ofNat 8 s) (BitVec.ofNat 16 imm)]
  | .binit => [.binit]
  | .merge => [.merge]
  | .finish => [.finish]
  | .build => [.build]
  | .gentab => [.gentab]
  | .enc s => [.enc (BitVec.ofNat 8 s)]
  | .dstart => [.dstart]
  | .dec d => [.dec (BitVec.ofNat 8 d)]
  | .dend => [.dend]
  | .nop => [.nop]
  | .srst => [.srst]
  | .eclr => [.eclr]
  | .wset s v => expandWset s v
  | .dec0 => [.dec 0x30#8]
  | .dec1 => [.dec 0x31#8]
  | .encstr text => text.map fun c => .enc (BitVec.ofNat 8 c)
  | .decstr bits => bits.map fun c => .dec (BitVec.ofNat 8 c)
  | .compile => [.build, .gentab]

/-- The words of a statement; none where an operand is out of range, which is "an assembler error, not an encoding"
(R100). -/
def assembleAsm (a : Asm) : Option (List Word) :=
  if a.wf then some ((expandAsm a).map encode) else none

/-! ### Lines of text -/

/-- What a line of text consists of (R100). -/
inductive Token where
  /-- A mnemonic, in capitals. -/
  | name (letters : List Char)
  /-- A number, or a character literal's ASCII code: the two are one token (log entry 14). -/
  | num (n : Nat)
  /-- A quoted string's bytes. -/
  | str (bytes : List Nat)
  | comma
deriving DecidableEq, Repr

/-- Where in a line the reader of tokens stands. -/
inductive LexMode where
  | between
  | inWord (letters : List Char)
  | inString (bytes : List Nat)
  | afterQuote
  | afterChar (code : Nat)
  | inComment
deriving DecidableEq, Repr

/-- The value of a digit in base 16. -/
def hexValue (c : Char) : Option Nat :=
  let n := c.toNat
  if 48 ≤ n ∧ n ≤ 57 then some (n - 48)
  else if 65 ≤ n ∧ n ≤ 70 then some (n - 55)
  else if 97 ≤ n ∧ n ≤ 102 then some (n - 87)
  else none

/-- A number's value, digit by digit, in a base of at most 16. -/
def readDigits (base : Nat) : List Char → Nat → Option Nat
  | [], acc => some acc
  | c :: cs, acc =>
    match hexValue c with
    | some d => if d < base then readDigits base cs (base * acc + d) else none
    | none => none

/-- A letter in capitals: mnemonics are case-insensitive (R100). -/
def capital (c : Char) : Char := if 97 ≤ c.toNat ∧ c.toNat ≤ 122 then Char.ofNat (c.toNat - 32) else c

/-- A character that a mnemonic or a number may hold. -/
def isWordChar (c : Char) : Bool := c.isAlphanum

/-- A mnemonic, or a decimal or hexadecimal number (R100). Every name is put in capitals: R100 makes the mnemonics of R96
case-insensitive, and that the names of R101's pseudo-instructions are so too is the model's DESIGN CHOICE (log entry 14). -/
def wordToken (w : List Char) : Option Token :=
  match w with
  | [] => none
  | '0' :: 'x' :: c :: cs => (readDigits 16 (c :: cs) 0).map .num
  | c :: cs => if c.isDigit then (readDigits 10 (c :: cs) 0).map .num else some (.name ((c :: cs).map capital))

/-- A character between tokens. 39 and 34 are the codes of the single and the double quote. -/
def lexBetween (c : Char) : Option (List Token × LexMode) :=
  if c = ' ' ∨ c.toNat = 9 ∨ c.toNat = 13 then some ([], .between)
  else if c = ',' then some ([.comma], .between)
  else if c = ';' then some ([], .inComment)
  else if c.toNat = 39 then some ([], .afterQuote)
  else if c.toNat = 34 then some ([], .inString [])
  else if isWordChar c then some ([], .inWord [c])
  else none

/-- One character of a line: the tokens it completes and where the reader then stands. A character that cannot continue a
word ends it, so that no blank need stand between a mnemonic and a quoted operand, or about a comma: the model's DESIGN
CHOICE (log entry 14). -/
def lexChar (m : LexMode) (c : Char) : Option (List Token × LexMode) :=
  match m with
  | .between => lexBetween c
  | .inWord w =>
    if isWordChar c then some ([], .inWord (w ++ [c]))
    else
      match wordToken w, lexBetween c with
      | some t, some (ts, m') => some (t :: ts, m')
      | _, _ => none
  | .inString bytes =>
    if c.toNat = 34 then some ([.str bytes], .between)
    else if c.toNat ≤ 127 then some ([], .inString (bytes ++ [c.toNat]))
    else none
  | .afterQuote => if c.toNat ≤ 127 then some ([], .afterChar c.toNat) else none
  | .afterChar code => if c.toNat = 39 then some ([.num code], .between) else none
  | .inComment => some ([], .inComment)

/-- The tokens of a line. -/
def lexLine : LexMode → List Char → Option (List Token)
  | m, [] =>
    match m with
    | .between | .inComment => some []
    | .inWord w => (wordToken w).map fun t => [t]
    | .inString _ | .afterQuote | .afterChar _ => none
  | m, c :: cs =>
    match lexChar m c with
    | some (ts, m') => (lexLine m' cs).map (ts ++ ·)
    | none => none

/-- Statements with no operand, by mnemonic. -/
def plainStatements : List (List Char × Asm) :=
  [(['W', 'C', 'L', 'R'], .wclr), (['B', 'I', 'N', 'I', 'T'], .binit), (['M', 'E', 'R', 'G', 'E'], .merge),
   (['F', 'I', 'N', 'I', 'S', 'H'], .finish), (['B', 'U', 'I', 'L', 'D'], .build),
   (['G', 'E', 'N', 'T', 'A', 'B'], .gentab), (['D', 'S', 'T', 'A', 'R', 'T'], .dstart)] ++
  [(['D', 'E', 'N', 'D'], .dend), (['N', 'O', 'P'], .nop), (['S', 'R', 'S', 'T'], .srst), (['E', 'C', 'L', 'R'], .eclr),
   (['D', 'E', 'C', '0'], .dec0), (['D', 'E', 'C', '1'], .dec1), (['C', 'O', 'M', 'P', 'I', 'L', 'E'], .compile)]

/-- A statement with one number as its operand. -/
def byteStatement (m : List Char) (n : Nat) : Option Asm :=
  if m = ['E', 'N', 'C'] then some (.enc n) else if m = ['D', 'E', 'C'] then some (.dec n) else none

/-- A statement with one string as its operand. -/
def stringStatement (m : List Char) (bytes : List Nat) : Option Asm :=
  if m = ['E', 'N', 'C', 'S', 'T', 'R'] then some (.encstr bytes)
  else if m = ['D', 'E', 'C', 'S', 'T', 'R'] then some (.decstr bytes)
  else none

/-- A statement with a symbol and a number as its operands. That each may be written in any way a token of a number can,
so that a character literal or a hexadecimal number may stand for an immediate and for WSET's `v`, is the model's DESIGN
CHOICE (log entry 14): R100 calls an immediate "a number", R101 gives `v` a range only. -/
def weightStatement (m : List Char) (s n : Nat) : Option Asm :=
  if m = ['W', 'S', 'E', 'T', 'L'] then some (.wsetl s n)
  else if m = ['W', 'S', 'E', 'T', 'H'] then some (.wseth s n)
  else if m = ['W', 'S', 'E', 'T'] then some (.wset s n)
  else none

/-- The statement of a line's tokens: "the mnemonic, then its operands separated by a comma" (R100). -/
def parseTokens : List Token → Option Asm
  | [.name m] => (plainStatements.find? (·.1 == m)).map (·.2)
  | [.name m, .num n] => byteStatement m n
  | [.name m, .str bytes] => stringStatement m bytes
  | [.name m, .num s, .comma, .num n] => weightStatement m s n
  | _ => none

/-- The words of one line of text: none for a line that is an error, no word for a line that is blank or only a comment
(R100). -/
def assembleLine (line : List Char) : Option (List Word) :=
  match lexLine .between line with
  | none => none
  | some [] => some []
  | some ts => (parseTokens ts).bind assembleAsm

/-- The words of a program, one command per line (R100). -/
def assembleLines : List (List Char) → Option (List Word)
  | [] => some []
  | l :: ls =>
    match assembleLine l, assembleLines ls with
    | some ws, some rest => some (ws ++ rest)
    | _, _ => none

end Sys2Proof.Machine
end

