-- ==== Sys2Proof/Safety.lean ====
section
/-! DEFINITION. The terms claims use: the invariant of the block (10_state.md R26, R27; 41_tree.md R148, R149), paths in
the tree (42_codetable.md R180), and runs of commands with their observation (70_reset_and_hazards.md R310). -/

namespace Sys2Proof.Machine

/-! ### Trees in the arena -/

/-- The child indices a node holds. -/
def Node.children : Node → List Nat
  | .leaf _ _ => []
  | .internal _ c0 c1 => [c0, c1]

/-- A leaf of the arena. -/
def Node.isLeaf : Node → Bool
  | .leaf _ _ => true
  | .internal _ _ _ => false

/-- Every child index the arena holds. -/
def childLinks (node : List Node) : List Nat := node.flatMap Node.children

/-- `p` is the path from node `x` to node `y` (R180): "each step from `Internal(w, c0, c1)` to `c0` contributes bit 0 and
each step to `c1` contributes bit 1, first step first". -/
inductive Path (node : List Node) : Nat → List Bool → Nat → Prop where
  | here (x : Nat) : Path node x [] x
  | step {x y : Nat} {w : Word} {c0 c1 : Nat} {b : Bool} {p : List Bool} :
      node[x]? = some (.internal w c0 c1) → Path node (childOf b c0 c1) p y → Path node x (b :: p) y

/-- `p` is the code of the leaf with symbol `x` in the tree with this root (R180): its path, or the single digit where the
root is itself the leaf. -/
def IsCode (node : List Node) (root : Nat) (x : Byte) (p : List Bool) : Prop :=
  ∃ i w, node[i]? = some (.leaf x w) ∧
    ((root = i ∧ p = [Config.singleLeafDigit]) ∨ (root ≠ i ∧ Path node root p i))

/-- The queue's order: by weight, and among equal weights by index, which is the order of arrival (R148, R149). -/
def Before (node : List Node) (i j : Nat) : Prop := wt node i < wt node j ∨ (wt node i = wt node j ∧ i < j)

/-! ### The invariant -/

/-- A well-formed arena with `n` leaves, whose nodes that are no node's child are exactly those of `held` (R26). -/
structure Forest (node : List Node) (n : Nat) (held : List Nat) : Prop where
  /-- R26 (b): every node has exactly one place: as a child of one node, or in `held`. -/
  owned : (childLinks node ++ held).Perm (List.range node.length)
  /-- R26 (a): children come before their parent, are two, and their weights sum to its weight with no overflow. -/
  links : ∀ (i : Nat) w c0 c1, node[i]? = some (.internal w c0 c1) →
    c0 < i ∧ c1 < i ∧ c0 ≠ c1 ∧ w.toNat = (wt node c0).toNat + (wt node c1).toNat
  /-- R26 (c): the leaves are exactly the indices below `n`. -/
  leavesFirst : ∀ (i : Nat) m, node[i]? = some m → (m.isLeaf = true ↔ i < n)
  /-- R26 (c): the leaves' symbols strictly increase with the index. -/
  leavesAscend : ∀ (i j : Nat) x y wx wy, i < j → node[i]? = some (.leaf x wx) → node[j]? = some (.leaf y wy) → x < y
  /-- R35: the leaf count counts the leaves. -/
  leafCount : n ≤ node.length ∧ n ≤ Config.maxLeaves

/-- What holds of the block in every state that a run from reset reaches. -/
structure State.Inv (s : State) : Prop where
  /-- R26: the arena is well formed, and the nodes with no parent are those of the queue and the root. -/
  arena : Forest s.node s.nleaves (s.pq ++ s.root.toList)
  /-- R27, R148, R149: the queue is in ascending weight order, ties in order of arrival. -/
  sorted : s.pq.Pairwise (Before s.node)
  /-- R28, R29: nothing is built in NONE and EMPTY; a READY tree has left the queue empty. -/
  phase : (s.tstate = .tNone ∨ s.tstate = .tEmpty → s.node = []) ∧ (∀ r c, s.tstate = .tReady r c → s.pq = [])
  /-- R31, R221: the cursor is at the root or on an internal node. -/
  cursorPlace : ∀ r c, s.tstate = .tReady r c → c = r ∨ ∃ w c0 c1, s.node[c]? = some (.internal w c0 c1)
  /-- R31, R222: a decode has ended cleanly only in EMPTY or with the cursor at the root. -/
  donePlace : s.decDone = true → s.tstate = .tEmpty ∨ ∃ r, s.tstate = .tReady r r
  /-- R30: a table that is not valid has no entry. -/
  noTable : s.tableValid = false → s.code = emptyTable
  /-- R30, R181, R307: a valid table is the table of the current tree. -/
  validTable : s.tableValid = true →
    (s.tstate = .tEmpty ∧ s.code = emptyTable) ∨ ∃ r c, s.tstate = .tReady r c ∧ treeTable s.node r = .ok s.code
  /-- R271, R32: codes 9 to 15 are never recorded, and a clear record is all 0. -/
  errRecord : s.errCode ≤ 8#4 ∧ (s.errCode = 0#4 → s.errOpc = 0#8 ∧ s.errByte = 0#8)

/-! ### Runs of commands -/

/-- Perform command words one after another (R64). -/
def runWords : List Word → State → Outcome
  | [], s => .next s
  | w :: ws, s =>
    match perform w s with
    | .next t => runWords ws t
    | .fault f => .fault f
    | .refused r => .refused r

/-- The host writes these words to CMD, one after another, and does nothing else. -/
def commandScript (ws : List Word) : List HostReq := ws.map fun w => ⟨false, .write .word 0#14 w⟩

/-- A run is over: every command has been written and none is pending (R310). -/
def State.runOver (s : State) : Prop := s.host = [] ∧ s.pending = none

/-- The whole register space, word by word (R61). -/
def State.registerSpace (s : State) : List Word := (List.range 4096).map fun k => s.regRead (BitVec.ofNat 14 (4 * k))

/-- What a run that began in state `s₀` shows at its end (R310): the bytes emitted since it began, and the register
space. -/
def observe (s₀ s : State) : List Byte × List Word := (s.out.drop s₀.out.length, s.registerSpace)

/-- The sum of all weights, `T` (R153). -/
def totalWeight (t : ByteTable Word) : Nat := (symbols.map fun x => (readTable t x).toNat).sum

/-- The number of symbols that participate (R23). -/
def participants (t : ByteTable Word) : List Byte := symbols.filter fun x => 0#32 < readTable t x

end Sys2Proof.Machine
end

