-- ==== Sys2Proof/Certificates/Slice0/Obligations.lean ====
section
/-! DEFINITION. The statements for the provers. Each says which rule of spec/ it formalises. Every statement that a command
completes, or that a run ends, carries the premise that the output sink accepts every byte, which the model takes
throughout (93_implementation_defined.md U4, log entry 8). -/

open Sys2Proof Sys2Proof.Machine

/-! ### Encoding -/

/-- Words written out from 30_encoding.md R96 and R100 and from 95_test_vectors.md decode to the commands they stand for,
and three words of R98 to none. -/
def Obligations.SpecWordsDecode : Prop :=
  decode 0x11610003#32 = .ok (.wsetl 0x61#8 0x0003#16) ∧ decode 0x1200FFFF#32 = .ok (.wseth 0x00#8 0xFFFF#16) ∧
  decode 0x23000000#32 = .ok .build ∧ decode 0x30000000#32 = .ok .gentab ∧
  decode 0x40610000#32 = .ok (.enc 0x61#8) ∧ decode 0x51310000#32 = .ok (.dec 0x31#8) ∧
  decode 0x02000000#32 = .ok .eclr ∧ decode 0x03000000#32 = .error (.unassignedOpcode 0x03#8) ∧
  decode 0x20000001#32 = .error (.mustBeZero 0x20#8) ∧ decode 0x40610001#32 = .error (.mustBeZero 0x40#8)

/-- Decoding and encoding agree in both directions, for every command with every operand and for every word: each command
has one word, and each word means at most one command (R92 to R97). -/
def Obligations.DecodeInvertsEncode : Prop :=
  ∀ (w : Word) (i : Instr), decode w = .ok i ↔ w = encode i

/-- R96: there are fifteen rows, no two rows match one word, and a word selects a command exactly when it matches that
command's row under the row's mask. -/
def Obligations.OpcodeRowsSelectCommands : Prop :=
  opcodeTable.length = 15 ∧
  (∀ w, ∀ r ∈ opcodeTable, ∀ r' ∈ opcodeTable, r.selects w = true → r'.selects w = true → r = r') ∧
  (∀ w i, decode w = .ok i ↔ wordWellFormed w = true ∧ w = encode i) ∧
  (∀ w, ∀ r ∈ opcodeTable, r.selects w = true ↔ ∃ i, decode w = .ok i ∧ i.mnemonic = r.mnemonic)

/-- The fifteen opcodes of R96. -/
def assignedOpcodes : List Byte :=
  [0x00#8, 0x01#8, 0x02#8, 0x10#8, 0x11#8, 0x12#8, 0x20#8, 0x21#8, 0x22#8, 0x23#8, 0x30#8, 0x40#8, 0x50#8, 0x51#8, 0x52#8]

/-- R98: the illegal words are those with one of the 241 other opcodes and those with a must-be-zero bit set (R92: bits
23:0 of format N; R93: bits 15:0 of format B). Performing one raises IllegalCommand, and nothing else changes; while an
error is pending it is discarded. -/
def Obligations.IllegalWordsRaiseIllegalCommand : Prop :=
  (symbols.filter (· ∉ assignedOpcodes)).length = 241 ∧
  (∀ w : Word, (∃ e, decode w = .error e) ↔
    opcField w ∉ assignedOpcodes ∨
    (opcField w ∈ assignedOpcodes ∧ opcField w ∉ [0x11#8, 0x12#8, 0x40#8, 0x51#8] ∧ w.extractLsb' 0 24 ≠ 0#24) ∨
    (opcField w ∈ [0x40#8, 0x51#8] ∧ w.extractLsb' 0 16 ≠ 0#16)) ∧
  (∀ (w : Word) (s : State) e, decode w = .error e →
    (s.errCode = 0#4 → perform w s = .next { s with errCode := 8#4, errOpc := w.extractLsb' 24 8, errByte := w.extractLsb' 16 8 }) ∧
    (s.errCode ≠ 0#4 → perform w s = .next s))

/-- R101, with the operand ranges of R100: the words each statement and each pseudo-instruction assembles to, and that one
with an operand out of range assembles to nothing ("an assembler error, not an encoding"). -/
def Obligations.StatementsAssembleToTheirWords : Prop :=
  (assembleAsm .wclr = some [0x10000000#32] ∧ assembleAsm .binit = some [0x20000000#32] ∧
    assembleAsm .merge = some [0x21000000#32] ∧ assembleAsm .finish = some [0x22000000#32] ∧
    assembleAsm .build = some [0x23000000#32] ∧ assembleAsm .gentab = some [0x30000000#32] ∧
    assembleAsm .dstart = some [0x50000000#32] ∧ assembleAsm .dend = some [0x52000000#32] ∧
    assembleAsm .nop = some [0x00000000#32] ∧ assembleAsm .srst = some [0x01000000#32] ∧
    assembleAsm .eclr = some [0x02000000#32]) ∧
  (assembleAsm .dec0 = some [0x51300000#32] ∧ assembleAsm .dec1 = some [0x51310000#32] ∧
    assembleAsm .compile = some [0x23000000#32, 0x30000000#32]) ∧
  (∀ n : Nat,
    (n ≤ 255 → assembleAsm (.enc n) = some [BitVec.ofNat 32 (0x40000000 + 0x10000 * n)] ∧
      assembleAsm (.dec n) = some [BitVec.ofNat 32 (0x51000000 + 0x10000 * n)]) ∧
    (255 < n → assembleAsm (.enc n) = none ∧ assembleAsm (.dec n) = none)) ∧
  (∀ x imm : Nat,
    (x ≤ 255 → imm ≤ 65535 → assembleAsm (.wsetl x imm) = some [BitVec.ofNat 32 (0x11000000 + 0x10000 * x + imm)] ∧
      assembleAsm (.wseth x imm) = some [BitVec.ofNat 32 (0x12000000 + 0x10000 * x + imm)]) ∧
    (255 < x ∨ 65535 < imm → assembleAsm (.wsetl x imm) = none ∧ assembleAsm (.wseth x imm) = none)) ∧
  (∀ x v : Nat,
    (x ≤ 255 → v < 0x10000 → assembleAsm (.wset x v) = some [BitVec.ofNat 32 (0x11000000 + 0x10000 * x + v)]) ∧
    (x ≤ 255 → 0x10000 ≤ v → v < 2 ^ 32 → assembleAsm (.wset x v) =
      some [BitVec.ofNat 32 (0x11000000 + 0x10000 * x + v % 0x10000),
            BitVec.ofNat 32 (0x12000000 + 0x10000 * x + v / 0x10000)]) ∧
    (255 < x ∨ 2 ^ 32 ≤ v → assembleAsm (.wset x v) = none)) ∧
  (∀ text : List Nat,
    ((∀ c ∈ text, c ≤ 255) →
      assembleAsm (.encstr text) = some (text.map fun c => BitVec.ofNat 32 (0x40000000 + 0x10000 * c)) ∧
      assembleAsm (.decstr text) = some (text.map fun c => BitVec.ofNat 32 (0x51000000 + 0x10000 * c))) ∧
    ((∃ c ∈ text, 255 < c) → assembleAsm (.encstr text) = none ∧ assembleAsm (.decstr text) = none))

/-! ### Steps, the command port and the register space -/

/-- A step whose turn is the block's, with a pending word that decodes to a command, is that command's meaning in the state
with nothing pending: always for NOP, SRST and ECLR, and for every other command when no error is pending. Whose turn it is
is settled by the model's list of the host's acts (log entry 5). -/
def Obligations.StepRunsThePendingCommand : Prop :=
  ∀ (s : State) (w : Word) (i : Instr), s.hostTurn = none → s.pending = some w → decode w = .ok i →
    (s.errCode = 0#4 ∨ i = .nop ∨ i = .srst ∨ i = .eclr) → step s = exec i { s with pending := none }

/-- R273: while an error is pending, a word other than exactly the words of NOP, SRST and ECLR is discarded (nothing changes
but that it is no longer pending), and those three are performed. -/
def Obligations.PendingErrorDiscardsCommands : Prop :=
  ∀ (s : State) (w : Word), s.hostTurn = none → s.pending = some w → s.errCode ≠ 0#4 →
    (w ≠ 0x00000000#32 → w ≠ 0x01000000#32 → w ≠ 0x02000000#32 → step s = .next { s with pending := none }) ∧
    (w = 0x00000000#32 → step s = exec .nop { s with pending := none }) ∧
    (w = 0x01000000#32 → step s = exec .srst { s with pending := none }) ∧
    (w = 0x02000000#32 → step s = exec .eclr { s with pending := none })

/-- R305: the host's write to CMD is held while a command is pending (the step is the block's, which completes the pending
word, and the write is still the host's next act after it); with none pending it is accepted. The order of the host's acts
is the model's own list (log entry 5). -/
def Obligations.CommandWritesAreHeldWhileBusy : Prop :=
  ∀ (s : State) (polled : Bool) (d : Word) (rest : List HostReq), s.host = ⟨polled, .write .word 0#14 d⟩ :: rest →
    (∀ w, s.pending = some w → step s = perform w { s with pending := none } ∧
      ∀ t, step s = .next t → t.pending = none ∧ t.host = s.host) ∧
    (s.pending = none → step s = .next { s with host := rest, pending := some d })

/-- With nothing pending and nothing left for the host to do, a step changes nothing: the block waits for a command
(R285, R302). That the idle block makes such a step is the model's choice (log entry 12). -/
def Obligations.IdleBlockWaits : Prop :=
  ∀ s : State, s.pending = none → s.host = [] → step s = .next s

/-- R62, R47: CMD and the reserved offsets read 0, and a write to any offset but CMD is ignored, busy or not. The list of the host's acts is
the model's own (log entry 5). -/
def Obligations.ReservedReadsAndIgnoredWrites : Prop :=
  (∀ s : State, s.regRead 0x0000#14 = 0#32) ∧
  (∀ (s : State) (off : Offset), 0x0018 ≤ off.toNat → off.toNat ≤ 0x03FF → s.regRead off = 0#32) ∧
  (∀ (s : State) (polled : Bool) (off : Offset) (d : Word) (rest : List HostReq),
    s.host = ⟨polled, .write .word off d⟩ :: rest → off.toNat % 4 = 0 → off ≠ 0#14 → (polled = true → s.pending = none) →
    step s = .next { s with host := rest })

/-- R63: a read changes no state of the block: the host has its reply and every register reads as before. R304: after BUSY
was read 0 the reply is the register's value. The lists of the host's acts and replies are the model's own (log entry 5). -/
def Obligations.ReadsHaveNoSideEffect : Prop :=
  ∀ (s : State) (polled : Bool) (off : Offset) (rest : List HostReq), s.host = ⟨polled, .read .word off⟩ :: rest →
    off.toNat % 4 = 0 → s.pending = none →
    ∃ t, step s = .next t ∧ t = { s with host := rest, replies := s.replies ++ [s.regRead off] } ∧
      ∀ off', t.regRead off' = s.regRead off'

/-- R304: a read made while a command is pending replies the free value (log entry 6), with one bit known: bit 0 of STATUS
reads 1. The block is not changed. The lists of the host's acts and replies are the model's own (log entry 5). -/
def Obligations.BusyReadsKnowOnlyBusy : Prop :=
  ∀ (s : State) (w : Word) (off : Offset) (rest : List HostReq), s.pending = some w →
    s.host = ⟨false, .read .word off⟩ :: rest → off.toNat % 4 = 0 →
    ∃ v, step s = .next { s with host := rest, replies := s.replies ++ [v], draws := s.draws + 1 } ∧
      (off ≠ 0x0004#14 → v = Config.busyRead s.draws) ∧
      (off = 0x0004#14 → v.getLsbD 0 = true ∧ ∀ k, 0 < k → v.getLsbD k = (Config.busyRead s.draws).getLsbD k)

/-- R65: a host access of another width or at an offset that is not a multiple of 4 is refused (log entry 11). The list of
the host's acts is the model's own (log entry 5). -/
def Obligations.OtherAccessesAreRefused : Prop :=
  ∀ (s : State) (a : HostAct) (rest : List HostReq), s.hostTurn = some (a, rest) →
    (step s = .refused .accessNotAdmitted ↔
      ∃ (width : AccessWidth) (off : Offset), (width ≠ .word ∨ off.toNat % 4 ≠ 0) ∧
        (a = .read width off ∨ ∃ d, a = .write width off d))

/-- R300: the reset input, and SRST, set every element of R22 to its reset value. A hardware reset also empties `pending`;
of the command it cuts short some prefix of its output has been emitted, and bytes emitted before stay. The list of the
host's acts is the model's own (log entry 5). -/
def Obligations.ResetClearsTheBlock : Prop :=
  (∀ (s : State) (rest : List HostReq), s.hostTurn = some (.reset, rest) →
    (s.pending = none → step s = .next { State.reset with out := s.out, host := rest, replies := s.replies, draws := s.draws }) ∧
    (∀ w, s.pending = some w → ∃ bytes, bytes <+: emittedBy w { s with host := rest, pending := none } ∧
      step s = .next { State.reset with out := s.out ++ bytes, host := rest, replies := s.replies, draws := s.draws + 1 })) ∧
  (∀ s : State, exec .srst s = .next { State.reset with
    pending := s.pending, out := s.out, host := s.host, replies := s.replies, draws := s.draws })

/-- R301: after reset every register reads 0. -/
def Obligations.EveryRegisterReadsZeroAfterReset : Prop :=
  ∀ off : Offset, State.reset.regRead off = 0#32

/-- R36: the fields of STATUS, for a queue of at most 256 entries (R27). -/
def Obligations.StatusShowsTheFlags : Prop :=
  ∀ s : State, s.pq.length ≤ 256 →
    let v := s.regRead 0x0004#14
    (v.getLsbD 0 = true ↔ s.pending ≠ none) ∧
    (v.extractLsb' 1 2 = (match s.tstate with | .tNone => 0#2 | .tBuilding => 1#2 | .tReady _ _ => 2#2 | .tEmpty => 3#2)) ∧
    v.getLsbD 3 = s.tableValid ∧ v.getLsbD 4 = s.decDone ∧ (v.getLsbD 5 = true ↔ ∃ r, s.tstate = .tReady r r) ∧
    (v.getLsbD 6 = true ↔ s.errCode ≠ 0#4) ∧ v.extractLsb' 7 9 = 0#9 ∧ (v.extractLsb' 16 9).toNat = s.pq.length ∧
    v.extractLsb' 25 7 = 0#7

/-- R37 to R40: the fields of ERRINFO, TREEINFO, ROOT and CURSOR, for an arena within its bounds (R25, R35). -/
def Obligations.InfoRegistersShowTheState : Prop :=
  ∀ s : State, s.node.length ≤ 511 → s.nleaves ≤ 256 → (∀ r c, s.tstate = .tReady r c → r < 511 ∧ c < 511) →
    let e := s.regRead 0x0008#14
    let t := s.regRead 0x000C#14
    let r := s.regRead 0x0010#14
    let c := s.regRead 0x0014#14
    (e.extractLsb' 0 4 = s.errCode ∧ e.extractLsb' 4 4 = 0#4 ∧ e.extractLsb' 8 8 = s.errOpc ∧
      e.extractLsb' 16 8 = s.errByte ∧ e.extractLsb' 24 8 = 0#8) ∧
    ((t.extractLsb' 0 9).toNat = s.nleaves ∧ t.extractLsb' 9 7 = 0#7 ∧ (t.extractLsb' 16 9).toNat = s.node.length ∧
      t.extractLsb' 25 7 = 0#7) ∧
    (∀ root cursor, s.tstate = .tReady root cursor →
      (r.extractLsb' 0 9).toNat = root ∧ r.extractLsb' 9 22 = 0#22 ∧ r.getLsbD 31 = true ∧
      (c.extractLsb' 0 9).toNat = cursor ∧ c.extractLsb' 9 22 = 0#22 ∧ c.getLsbD 31 = true) ∧
    ((∀ root cursor, s.tstate ≠ .tReady root cursor) → r = 0#32 ∧ c = 0#32)

/-- R41, R45, R46: the windows of the weight table and the code table, for every symbol, at the offsets of R61. -/
def Obligations.TableWindowsShowTheTables : Prop :=
  ∀ (s : State) (x : Byte),
    s.regRead (BitVec.ofNat 14 (0x0400 + 4 * x.toNat)) = s.weightOf x ∧
    (s.codeLen x ≤ 255 →
      (s.regRead (BitVec.ofNat 14 (0x1C00 + 4 * x.toNat))).toNat = s.codeLen x ∧
      ∀ j t, j < 8 → t < 32 →
        (s.regRead (BitVec.ofNat 14 (0x2000 + 32 * x.toNat + 4 * j))).getLsbD t = (s.codeOf x).getD (32 * j + t) false)

/-- R42, R43, R44: the windows of the arena and the queue at the offsets of R61; what holds nothing reads 0. -/
def Obligations.TreeWindowsShowTheTree : Prop :=
  ∀ (s : State) (i : Nat), i < 512 →
    let w := s.regRead (BitVec.ofNat 14 (0x0800 + 4 * i))
    let d := s.regRead (BitVec.ofNat 14 (0x1000 + 4 * i))
    (s.node[i]? = none → w = 0#32 ∧ d = 0#32) ∧
    (∀ x v, s.node[i]? = some (.leaf x v) → w = v ∧ d.getLsbD 31 = true ∧ d.extractLsb' 9 22 = 0#22 ∧
      (d.extractLsb' 0 9).toNat = x.toNat) ∧
    (∀ v c0 c1, s.node[i]? = some (.internal v c0 c1) → c0 < 512 → c1 < 512 →
      w = v ∧ d.getLsbD 31 = true ∧ d.getLsbD 30 = true ∧ d.extractLsb' 25 5 = 0#5 ∧ (d.extractLsb' 16 9).toNat = c1 ∧
      d.extractLsb' 9 7 = 0#7 ∧ (d.extractLsb' 0 9).toNat = c0) ∧
    (i < 256 →
      let q := s.regRead (BitVec.ofNat 14 (0x1800 + 4 * i))
      (s.pq[i]? = none → q = 0#32) ∧
      (∀ j, s.pq[i]? = some j → j < 512 → q.getLsbD 31 = true ∧ q.extractLsb' 9 22 = 0#22 ∧ (q.extractLsb' 0 9).toNat = j))

/-! ### Weights -/

/-- R120: WCLR makes every weight 0 and changes nothing else. -/
def Obligations.WclrClearsEveryWeight : Prop :=
  encode .wclr = 0x10000000#32 ∧ ∀ s : State, ∃ t, exec .wclr s = .next t ∧ (∀ x, t.weightOf x = 0#32) ∧
    t = { s with weight := t.weight }

/-- R121: WSETL makes one weight the immediate and changes nothing else. -/
def Obligations.WsetlSetsOneWeight : Prop :=
  ∀ (s : State) (x : Byte) (imm : Half), encode (.wsetl x imm) = 0x11#8 ++ x ++ imm ∧
    ∃ t, exec (.wsetl x imm) s = .next t ∧ (t.weightOf x).toNat = imm.toNat ∧
    (∀ y, y ≠ x → t.weightOf y = s.weightOf y) ∧ t = { s with weight := t.weight }

/-- R122: WSETH makes bits 31:16 of one weight the immediate, keeps its bits 15:0, and changes nothing else. -/
def Obligations.WsethSetsTheUpperHalf : Prop :=
  ∀ (s : State) (x : Byte) (imm : Half), encode (.wseth x imm) = 0x12#8 ++ x ++ imm ∧ ∃ t, exec (.wseth x imm) s = .next t ∧
    (t.weightOf x).extractLsb' 16 16 = imm ∧ (t.weightOf x).extractLsb' 0 16 = (s.weightOf x).extractLsb' 0 16 ∧
    (∀ y, y ≠ x → t.weightOf y = s.weightOf y) ∧ t = { s with weight := t.weight }

/-- R95, R101: the words the assembler makes of `WSET s, v` load the whole 32-bit weight, whatever it was, and change nothing
else. -/
def Obligations.WsetLoadsAWholeWeight : Prop :=
  ∀ (s : State) (x v : Nat), x ≤ 255 → v < 2 ^ 32 → s.errCode = 0#4 → ∃ ws t, assembleAsm (.wset x v) = some ws ∧
    runWords ws s = .next t ∧ (t.weightOf (BitVec.ofNat 8 x)).toNat = v ∧
    (∀ y, y ≠ BitVec.ofNat 8 x → t.weightOf y = s.weightOf y) ∧ t = { s with weight := t.weight }

/-! ### Queue and tree -/

/-- R141: in a queue sorted by weight, `pq_insert` puts the node after every entry whose weight is less than or equal to its
own and before every heavier one, and (R148) the queue stays sorted. -/
def Obligations.QueueInsertionIsStable : Prop :=
  ∀ (node : List Node) (pq : List Nat) (x : Nat), pq.Pairwise (fun i j => wt node i ≤ wt node j) →
    ∃ front back, pq = front ++ back ∧ pqInsert node pq x = front ++ x :: back ∧
      (∀ j ∈ front, wt node j ≤ wt node x) ∧ (∀ j ∈ back, wt node x < wt node j) ∧
      (pqInsert node pq x).Pairwise (fun i j => wt node i ≤ wt node j)

/-- R144 (with R149 for the order among equal weights): BINIT makes one leaf per symbol with a positive weight, in ascending
symbol order, and a queue of all of them in ascending weight order, equal weights in ascending symbol order; it discards
the old tree, table and decoder position. It raises no error in any state, and changes nothing else. -/
def Obligations.BinitLoadsOneLeafPerParticipant : Prop :=
  encode .binit = 0x20000000#32 ∧ ∀ s : State, ∃ t, exec .binit s = .next t ∧
    t.node = (symbols.filter fun x => 0#32 < s.weightOf x).map (fun x => .leaf x (s.weightOf x)) ∧
    t.nleaves = t.node.length ∧ t.pq.Perm (List.range t.node.length) ∧
    t.pq.Pairwise (fun i j => wt t.node i < wt t.node j ∨ (wt t.node i = wt t.node j ∧ i < j)) ∧
    t.tstate = .tBuilding ∧ t.decDone = false ∧ t.tableValid = false ∧ (∀ x, t.codeOf x = []) ∧
    t = { s with node := t.node, nleaves := t.nleaves, pq := t.pq, tstate := t.tstate, decDone := t.decDone,
                 tableValid := t.tableValid, code := t.code }

/-- R143, R145: MERGE of a queue with two front nodes `a`, `b` whose weights sum below 2^32 appends the internal node of
their exact sum with children `a` (child 0) and `b` (child 1) and inserts it; on fewer than two nodes it raises EmptyQueue
(code 1) and on a sum of 2^32 or more WeightOverflow (code 5), with nothing else changed. -/
def Obligations.MergeJoinsTheTwoFrontNodes : Prop :=
  encode .merge = 0x21000000#32 ∧
  (∀ (s : State) (a b : Nat) (rest : List Nat), s.pq = a :: b :: rest →
    (wt s.node a).toNat + (wt s.node b).toNat < 2 ^ 32 →
    ∃ t v, exec .merge s = .next t ∧ t.node = s.node ++ [.internal v a b] ∧
      v.toNat = (wt s.node a).toNat + (wt s.node b).toNat ∧ t.pq = pqInsert t.node rest s.node.length ∧
      t.pq.length + 1 = s.pq.length ∧ t = { s with node := t.node, pq := t.pq }) ∧
  (∀ (s : State) (a b : Nat) (rest : List Nat), s.pq = a :: b :: rest →
    2 ^ 32 ≤ (wt s.node a).toNat + (wt s.node b).toNat →
    exec .merge s = .next { s with errCode := 5#4, errOpc := 0x21#8, errByte := 0#8 }) ∧
  (∀ s : State, s.pq.length < 2 → exec .merge s = .next { s with errCode := 1#4, errOpc := 0x21#8, errByte := 0#8 })

/-- R146: FINISH outside BUILDING raises SequenceError; in BUILDING it is MERGE done until one node remains, which it takes
as the root with the cursor on it; with no node it ends in EMPTY; a WeightOverflow in a merge ends it with the earlier
merges standing and the tree state still BUILDING. -/
def Obligations.FinishMergesAndTakesTheRoot : Prop :=
  encode .finish = 0x22000000#32 ∧
  (∀ s : State, s.tstate ≠ .tBuilding → exec .finish s = .next { s with errCode := 6#4, errOpc := 0x22#8, errByte := 0#8 }) ∧
  (∀ s : State, s.tstate = .tBuilding → s.pq = [] → exec .finish s = .next { s with tstate := .tEmpty }) ∧
  (∀ (s t : State) (r : Nat) (k : Nat), s.tstate = .tBuilding → s.errCode = 0#4 →
    runWords (List.replicate k (encode .merge)) s = .next t → t.errCode = 0#4 → t.pq = [r] →
    exec .finish s = .next { t with pq := [], tstate := .tReady r r }) ∧
  (∀ (s t : State) (a b : Nat) (rest : List Nat) (k : Nat), s.tstate = .tBuilding → s.errCode = 0#4 →
    runWords (List.replicate k (encode .merge)) s = .next t → t.errCode = 0#4 → t.pq = a :: b :: rest →
    2 ^ 32 ≤ (wt t.node a).toNat + (wt t.node b).toNat →
    exec .finish s = .next { t with errCode := 5#4, errOpc := 0x22#8, errByte := 0#8 })

/-- R146 in every state a run reaches: in BUILDING, FINISH ends in EMPTY when there are no leaves, and in READY when there
are some and the weights in the queue sum below 2^32: the queue is empty, the arena has 2n - 1 nodes, of which the earlier
ones are unchanged, and root and cursor are the last of them (R150). Nothing else changes. -/
def Obligations.FinishCompletesTheTree : Prop :=
  ∀ s : State, s.Inv → s.tstate = .tBuilding →
    (s.nleaves = 0 → exec .finish s = .next { s with tstate := .tEmpty }) ∧
    (0 < s.nleaves → (s.pq.map fun i => (wt s.node i).toNat).sum < 2 ^ 32 →
      ∃ t, exec .finish s = .next t ∧ t.tstate = .tReady (2 * s.nleaves - 2) (2 * s.nleaves - 2) ∧ t.pq = [] ∧
        s.node <+: t.node ∧ t.node.length = 2 * s.nleaves - 1 ∧
        (wt t.node (2 * s.nleaves - 2)).toNat = (s.pq.map fun i => (wt s.node i).toNat).sum ∧
        t = { s with node := t.node, pq := [], tstate := t.tstate })

/-- R147: BUILD is BINIT followed by FINISH, except that the error FINISH can raise is reported with BUILD's opcode. -/
def Obligations.BuildIsBinitThenFinish : Prop :=
  encode .build = 0x23000000#32 ∧ ∀ s t u : State, exec .binit s = .next t → exec .finish t = .next u →
    (u.tstate ≠ .tBuilding → exec .build s = .next u) ∧
    (u.tstate = .tBuilding → u.errCode = 5#4 ∧ u.errOpc = 0x22#8 ∧ exec .build s = .next { u with errOpc := 0x23#8 })

/-- BUILD in every state, in terms of the weight table alone: with `n` participating symbols whose weights sum to `T`, it
ends in EMPTY for n = 0; for n ≥ 1 and T below 2^32 it ends in READY with the 2n - 1 nodes of R150, the leaves first in
ascending symbol order, and a root of weight T, with the cursor on it; for n ≥ 2 it raises WeightOverflow exactly when T is
2^32 or more (R153), and stays in BUILDING. Whichever way it ends, it changes only the tree, the queue, the code table
(which it clears), DEC_DONE (which it clears) and, in the last case, the error record. -/
def Obligations.BuildDependsOnTheTotalWeight : Prop :=
  ∀ s : State, ∃ t,
    let ps := participants s.weight
    let total := totalWeight s.weight
    exec .build s = .next t ∧
    t = { s with node := t.node, nleaves := ps.length, pq := t.pq, tstate := t.tstate, code := emptyTable,
                 tableValid := false, decDone := false, errCode := t.errCode, errOpc := t.errOpc, errByte := t.errByte } ∧
    t.node.take ps.length = ps.map (fun x => .leaf x (s.weightOf x)) ∧ (∀ m ∈ t.node.drop ps.length, m.isLeaf = false) ∧
    (total < 2 ^ 32 → t.errCode = s.errCode ∧ t.errOpc = s.errOpc ∧ t.errByte = s.errByte ∧ t.pq = [] ∧
      (ps = [] → t.tstate = .tEmpty ∧ t.node = []) ∧
      (ps ≠ [] → t.tstate = .tReady (2 * ps.length - 2) (2 * ps.length - 2) ∧ t.node.length = 2 * ps.length - 1 ∧
        (wt t.node (2 * ps.length - 2)).toNat = total)) ∧
    (2 ^ 32 ≤ total → 2 ≤ ps.length ∧ t.tstate = .tBuilding ∧ t.errCode = 5#4 ∧ t.errOpc = 0x23#8 ∧ t.errByte = 0#8)

/-- "The whole build is a function of the weight table alone" (R149): two states with the same weights, whatever else they
hold, get the same tree, the same queue and the same tree state from BUILD. -/
def Obligations.BuildSeesOnlyTheWeights : Prop :=
  ∀ s s' t t' : State, s.weight = s'.weight → exec .build s = .next t → exec .build s' = .next t' →
    t.node = t'.node ∧ t.pq = t'.pq ∧ t.nleaves = t'.nleaves ∧ t.tstate = t'.tstate ∧ t.code = t'.code

/-! ### Code table and encoder -/

/-- R181: GENTAB in a READY tree that a run reaches fills the table with the code of every leaf, its path from the root
(R180), and no other entry; in EMPTY it makes the empty table; in NONE and BUILDING it raises SequenceError. Nothing else
changes. -/
def Obligations.GentabFillsTheTable : Prop :=
  encode .gentab = 0x30000000#32 ∧
  (∀ (s : State) (r c : Nat), s.Inv → s.tstate = .tReady r c → ∃ t, exec .gentab s = .next t ∧ t.tableValid = true ∧
    (∀ x p, IsCode s.node r x p → t.codeOf x = p) ∧
    (∀ x, t.codeOf x = [] ↔ ∀ (i : Nat) v, s.node[i]? ≠ some (.leaf x v)) ∧
    t = { s with code := t.code, tableValid := true }) ∧
  (∀ s : State, s.tstate = .tEmpty → ∃ t, exec .gentab s = .next t ∧ t.tableValid = true ∧ (∀ x, t.codeOf x = []) ∧
    t = { s with code := t.code, tableValid := true }) ∧
  (∀ s : State, s.tstate = .tNone ∨ s.tstate = .tBuilding →
    exec .gentab s = .next { s with errCode := 6#4, errOpc := 0x30#8, errByte := 0#8 })

/-- R182 (a), (b), (c): in every state a run reaches, the entries of a valid table are exactly the leaves' symbols, and no
entry's code is a prefix of another's. -/
def Obligations.CodesArePrefixFree : Prop :=
  ∀ s : State, s.Inv → s.tableValid = true →
    (∀ x, s.codeLen x ≠ 0 ↔ ∃ (i : Nat) (v : Word), s.node[i]? = some (.leaf x v)) ∧
    (∀ x y, x ≠ y → s.codeLen x ≠ 0 → s.codeLen y ≠ 0 → ¬ s.codeOf x <+: s.codeOf y)

/-- R183: every entry of a table that a run reaches has a length between 1 and `nleaves` - 1, or of 1 in a single-leaf tree;
so no code is longer than 255. -/
def Obligations.CodeLengthsAreBounded : Prop :=
  ∀ (s : State) (x : Byte), s.Inv → s.codeLen x ≠ 0 →
    (2 ≤ s.nleaves → s.codeLen x ≤ s.nleaves - 1) ∧ (s.nleaves = 1 → s.codeLen x = 1) ∧ s.nleaves ≠ 0 ∧ s.codeLen x ≤ 255

/-- R182 (d): the Kraft sum of the table of a READY tree, in units of 2^(-255), is exactly 1 for two or more leaves and
1/2 for one. -/
def Obligations.KraftSumIsExact : Prop :=
  ∀ (s : State) (r c : Nat), s.Inv → s.tableValid = true → s.tstate = .tReady r c →
    (symbols.map fun x => if s.codeLen x = 0 then 0 else 2 ^ (255 - s.codeLen x)).sum =
      if s.nleaves = 1 then 2 ^ 254 else 2 ^ 255

/-- R151: the code of a built tree minimises the total weighted length among all binary prefix codes: BUILD of two or more
symbols and GENTAB give code lengths whose sum, each weighted by its symbol's weight, is at most that of any assignment of
words to the participating symbols in which no symbol's word is a prefix of another's. -/
def Obligations.BuiltCodeIsOptimal : Prop :=
  ∀ (s t u : State) (word : Byte → List Bool), 2 ≤ (participants s.weight).length → totalWeight s.weight < 2 ^ 32 →
    exec .build s = .next t → exec .gentab t = .next u →
    (∀ x ∈ participants s.weight, ∀ y ∈ participants s.weight, x ≠ y → ¬ word x <+: word y) →
    (symbols.map fun x => (s.weightOf x).toNat * u.codeLen x).sum ≤
      (symbols.map fun x => (s.weightOf x).toNat * (word x).length).sum

/-- R200: ENC of a symbol with an entry emits one digit byte per bit of its code, 0x30 for bit 0 and 0x31 for bit 1, first
bit first, and changes nothing else; with no entry it raises UnknownSymbol, emits nothing and changes nothing else. -/
def Obligations.EncEmitsTheCode : Prop :=
  (∀ x : Byte, encode (.enc x) = 0x40000000#32 ||| (x.setWidth 32 <<< 16)) ∧
  (∀ (s : State) (x : Byte), s.codeLen x ≠ 0 → ∃ t digits, exec (.enc x) s = .next t ∧ t.out = s.out ++ digits ∧
    digits.length = s.codeLen x ∧
    (∀ k, k < s.codeLen x → digits[k]? = some (if (s.codeOf x).getD k false then 0x31#8 else 0x30#8)) ∧
    t = { s with out := t.out }) ∧
  (∀ (s : State) (x : Byte), s.codeLen x = 0 → exec (.enc x) s = .next { s with errCode := 2#4, errOpc := 0x40#8, errByte := x })

/-- R201: a sequence of ENC commands that raises no error emits exactly the sum of the code lengths. -/
def Obligations.EncodedLengthIsTheSum : Prop :=
  ∀ (s t : State) (xs : List Byte), s.errCode = 0#4 → runWords (xs.map fun x => encode (.enc x)) s = .next t →
    t.errCode = 0#4 → t.out.length = s.out.length + (xs.map s.codeLen).sum ∧ t = { s with out := t.out }

/-! ### Decoder -/

/-- R220: DSTART puts the cursor at the root in READY, only clears DEC_DONE in EMPTY, and raises SequenceError in NONE and
BUILDING. -/
def Obligations.DstartPutsTheCursorAtTheRoot : Prop :=
  encode .dstart = 0x50000000#32 ∧
  (∀ (s : State) (r c : Nat), s.tstate = .tReady r c →
    exec .dstart s = .next { s with tstate := .tReady r r, decDone := false }) ∧
  (∀ s : State, s.tstate = .tEmpty → exec .dstart s = .next { s with decDone := false }) ∧
  (∀ s : State, s.tstate = .tNone ∨ s.tstate = .tBuilding →
    exec .dstart s = .next { s with errCode := 6#4, errOpc := 0x50#8, errByte := 0#8 })

/-- R221: DEC with no READY tree raises NoTree, before it looks at the digit (R274); with a byte that is no digit it raises
InvalidBit; else, in every state a run reaches, it emits the symbol of a single-leaf tree, or moves the cursor to the child
the bit selects, emitting the symbol and returning to the root when that child is a leaf. -/
def Obligations.DecWalksTheTree : Prop :=
  (∀ d : Byte, encode (.dec d) = 0x51000000#32 ||| (d.setWidth 32 <<< 16)) ∧
  (∀ (s : State) (d : Byte), (∀ r c, s.tstate ≠ .tReady r c) →
    exec (.dec d) s = .next { s with errCode := 7#4, errOpc := 0x51#8, errByte := d }) ∧
  (∀ (s : State) (d : Byte) (r c : Nat), s.tstate = .tReady r c → d ≠ 0x30#8 → d ≠ 0x31#8 →
    exec (.dec d) s = .next { s with errCode := 3#4, errOpc := 0x51#8, errByte := d }) ∧
  (∀ (s : State) (d : Byte) (r c : Nat), s.Inv → s.tstate = .tReady r c → d = 0x30#8 ∨ d = 0x31#8 →
    (∀ x v, s.node[r]? = some (.leaf x v) → exec (.dec d) s = .next { s with decDone := false, out := s.out ++ [x] }) ∧
    (∀ v c0 c1, s.node[r]? = some (.internal v c0 c1) → ∃ v' e0 e1, s.node[c]? = some (.internal v' e0 e1) ∧
      ∀ nxt, nxt = (if d = 0x30#8 then e0 else e1) →
        (∃ x u, s.node[nxt]? = some (.leaf x u) ∧
          exec (.dec d) s = .next { s with decDone := false, tstate := .tReady r r, out := s.out ++ [x] }) ∨
        (∃ u f0 f1, s.node[nxt]? = some (.internal u f0 f1) ∧
          exec (.dec d) s = .next { s with decDone := false, tstate := .tReady r nxt })))

/-- R222: DEND sets DEC_DONE when the cursor is at the root or the tree is EMPTY, raises TruncatedStream in mid-traversal and
SequenceError in NONE and BUILDING. -/
def Obligations.DendMarksACompleteDecode : Prop :=
  encode .dend = 0x52000000#32 ∧
  (∀ (s : State) (r : Nat), s.tstate = .tReady r r → exec .dend s = .next { s with decDone := true }) ∧
  (∀ (s : State) (r c : Nat), s.tstate = .tReady r c → c ≠ r →
    exec .dend s = .next { s with errCode := 4#4, errOpc := 0x52#8, errByte := 0#8 }) ∧
  (∀ s : State, s.tstate = .tEmpty → exec .dend s = .next { s with decDone := true }) ∧
  (∀ s : State, s.tstate = .tNone ∨ s.tstate = .tBuilding →
    exec .dend s = .next { s with errCode := 6#4, errOpc := 0x52#8, errByte := 0#8 })

/-- The encoder's and the decoder's conventions agree, symbol by symbol: with the cursor at the root, DEC of the digits that
ENC emits for a symbol emits that symbol and leaves the cursor at the root (the step R224 rests on). -/
def Obligations.DecodingACodeGivesItsSymbol : Prop :=
  ∀ (s t : State) (r : Nat) (x : Byte) (digits : List Byte), s.Inv → s.tstate = .tReady r r → s.tableValid = true →
    s.errCode = 0#4 → s.codeLen x ≠ 0 → exec (.enc x) s = .next t → t.out = s.out ++ digits →
    runWords (digits.map fun d => encode (.dec d)) t = .next { t with out := t.out ++ [x], decDone := false }

/-- R224, under the premise that the output sink accepts every byte (U4, log entry 8): with `weight[s]` the number of occurrences of `s` in `S`, BUILD, GENTAB, one ENC per byte of `S`, DSTART, one DEC
per emitted digit and DEND raise no error, and the DEC commands emit exactly `S`, with `dec_done` = 1 at the end. -/
def Obligations.EncodeThenDecodeGivesTheInput : Prop :=
  ∀ (s : State) (input : List Byte), s.errCode = 0#4 → input.length ≤ 2 ^ 32 - 1 →
    (∀ x, (s.weightOf x).toNat = input.count x) →
    ∃ digits t u,
      runWords (encode .build :: encode .gentab :: input.map fun x => encode (.enc x)) s = .next t ∧
      t.errCode = 0#4 ∧ t.out = s.out ++ digits ∧
      runWords (encode .dstart :: (digits.map fun d => encode (.dec d)) ++ [encode .dend]) t = .next u ∧
      u.errCode = 0#4 ∧ u.out = t.out ++ input ∧ u.decDone = true

/-! ### Control -/

/-- R250: NOP has no effect, whether or not an error is pending. -/
def Obligations.NopHasNoEffect : Prop :=
  encode .nop = 0x00000000#32 ∧ ∀ s : State, exec .nop s = .next s ∧ perform 0x00000000#32 s = .next s

/-- R251: SRST returns every element to its reset value, clears a pending error, and leaves the output stream: afterwards
every field of STATUS but BUSY reads 0, and every other register reads 0. -/
def Obligations.SrstReturnsToReset : Prop :=
  encode .srst = 0x01000000#32 ∧ ∀ s : State, ∃ t, exec .srst s = .next t ∧
    t = { State.reset with pending := s.pending, out := s.out, host := s.host, replies := s.replies, draws := s.draws } ∧
    ∀ off : Offset, t.regRead off &&& (if 0x0004 ≤ off.toNat ∧ off.toNat ≤ 0x0007 then 0xFFFFFFFE#32 else 0xFFFFFFFF#32) = 0#32

/-- R252: ECLR clears the error record, so that ERRINFO reads 0 and STATUS.ERR reads 0, and changes nothing else. -/
def Obligations.EclrClearsOnlyTheErrorRecord : Prop :=
  encode .eclr = 0x02000000#32 ∧ ∀ s : State, ∃ t, exec .eclr s = .next t ∧
    t = { s with errCode := 0#4, errOpc := 0#8, errByte := 0#8 } ∧
    t.regRead 0x0008#14 = 0#32 ∧ (t.regRead 0x0004#14).getLsbD 6 = false

/-! ### Errors and rules about the whole machine -/

/-- R275, R271, R272: a word that raises an error emits no byte, records a code from 1 to 8 with its own opcode and BYTE
fields, and, unless it is FINISH or BUILD, changes nothing but the error record; FINISH and BUILD raise only
WeightOverflow after a change of state. -/
def Obligations.ErrorsArePrecise : Prop :=
  ∀ (s t : State) (w : Word), s.errCode = 0#4 → perform w s = .next t → t.errCode ≠ 0#4 →
    t.out = s.out ∧ t.errCode ≤ 8#4 ∧ t.errOpc = w.extractLsb' 24 8 ∧ t.errByte = w.extractLsb' 16 8 ∧
    (t = { s with errCode := t.errCode, errOpc := t.errOpc, errByte := t.errByte } ∨
      ((w = encode .finish ∨ w = encode .build) ∧ t.errCode = 5#4))

/-- R277 with R32: while an error is pending a step keeps its record or clears it whole. -/
def Obligations.ErrorsDoNotNest : Prop :=
  ∀ s t : State, s.errCode ≠ 0#4 → step s = .next t →
    (t.errCode = s.errCode ∧ t.errOpc = s.errOpc ∧ t.errByte = s.errByte) ∨
    (t.errCode = 0#4 ∧ t.errOpc = 0#8 ∧ t.errByte = 0#8)

/-- The writers of every element of R22 (R23, R25, R27 to R32, R35, R48) and of the output stream (R60): the commands under
which it can change. MERGE, FINISH and BUILD write the arena and the queue, BINIT and BUILD also the leaf count; DSTART and
DEC move the cursor and keep the root. A command that changes the error record either clears it (ECLR, SRST) or records an
error of its own. No command touches `pending`, nor the host's side, which is the model's own (log entries 5 and 6). -/
def Obligations.EachStateElementHasItsWriters : Prop :=
  ∀ (i : Instr) (s t : State), exec i s = .next t →
    (t.weight ≠ s.weight → i = .wclr ∨ (∃ x v, i = .wsetl x v) ∨ (∃ x v, i = .wseth x v) ∨ i = .srst) ∧
    (t.node ≠ s.node → i ∈ [.binit, .merge, .finish, .build, .srst]) ∧
    (t.nleaves ≠ s.nleaves → i ∈ [.binit, .build, .srst]) ∧
    (t.pq ≠ s.pq → i ∈ [.binit, .merge, .finish, .build, .srst]) ∧
    (t.tstate.bits ≠ s.tstate.bits ∨ t.root ≠ s.root → i ∈ [.binit, .finish, .build, .srst]) ∧
    (t.cursor ≠ s.cursor → i ∈ [.binit, .finish, .build, .srst, .dstart] ∨ ∃ d, i = .dec d) ∧
    (t.code ≠ s.code → i ∈ [.gentab, .binit, .build, .srst]) ∧
    (s.tableValid = false → t.tableValid = true → i = .gentab) ∧
    (s.tableValid = true → t.tableValid = false → i = .binit ∨ i = .build ∨ i = .srst) ∧
    (s.decDone = false → t.decDone = true → i = .dend) ∧
    (s.decDone = true → t.decDone = false → i = .dstart ∨ (∃ d, i = .dec d) ∨ i = .binit ∨ i = .build ∨ i = .srst) ∧
    (¬(t.errCode = s.errCode ∧ t.errOpc = s.errOpc ∧ t.errByte = s.errByte) →
      (i ∈ [.eclr, .srst] ∧ t.errCode = 0#4 ∧ t.errOpc = 0#8 ∧ t.errByte = 0#8) ∨
      ((i ∈ [.merge, .finish, .build, .gentab, .dstart, .dend] ∨ (∃ x, i = .enc x) ∨ ∃ d, i = .dec d) ∧
        t.errCode ≠ 0#4 ∧ t.errOpc = (encode i).extractLsb' 24 8 ∧ t.errByte = (encode i).extractLsb' 16 8)) ∧
    (t.out ≠ s.out → (∃ x, i = .enc x) ∨ ∃ d, i = .dec d) ∧
    t.pending = s.pending ∧ t.host = s.host ∧ t.replies = s.replies ∧ t.draws = s.draws

/-- R34, R66: no step takes a byte back: the output stream is append-only, through errors, SRST and hardware resets. -/
def Obligations.OutputOnlyGrows : Prop :=
  ∀ s t : State, step s = .next t → s.out <+: t.out

/-- The invariant holds at reset. -/
def Obligations.InvariantHoldsAtReset : Prop := State.reset.Inv

/-- R26, R27, R148, R149 and the other clauses of the invariant: every step from a state that satisfies it, of the block or
of the host, ends in one that satisfies it. -/
def Obligations.EveryStepKeepsTheInvariant : Prop :=
  ∀ s t : State, s.Inv → step s = .next t → t.Inv

/-- From a state that satisfies the invariant no step faults, and the only refusal is that of a host access the block does
not admit (log entry 11): every command answers a next state, which for a command that raises is the recorded error. As all
that is said of completion, it rests on the premise that the output sink accepts every byte (U4, log entry 8). -/
def Obligations.NoReachableStepFaults : Prop :=
  (∀ (s : State) (i : Instr), s.Inv → ∃ t, exec i s = .next t) ∧
  (∀ s : State, s.Inv → (∃ t, step s = .next t) ∨ step s = .refused .accessNotAdmitted)

/-- R152: the queue holds at most `nleaves` entries, which is at most 256, and the arena at most 2·`nleaves` - 1 nodes, which
is at most 511, or none. -/
def Obligations.CapacitiesAreNeverExceeded : Prop :=
  ∀ s : State, s.Inv → s.pq.length ≤ s.nleaves ∧ s.nleaves ≤ 256 ∧
    (s.nleaves = 0 → s.node = []) ∧ (0 < s.nleaves → s.node.length ≤ 2 * s.nleaves - 1 ∧ 2 * s.nleaves - 1 ≤ 511)

/-- R68, R310: when the host writes a list of command words to CMD one after another, the run of 2 steps per word ends with
every word performed in that order and nothing pending. It rests on the premise that the output sink accepts every byte,
which the model takes throughout (U4, log entry 8). -/
def Obligations.ScriptPerformsTheWordsInOrder : Prop :=
  ∀ (s t : State) (ws : List Word), s.pending = none → s.host = commandScript ws →
    runWords ws { s with host := [] } = .next t →
    Host.Core.run Sys2Proof.core (2 * ws.length) s = .next t ∧ t.runOver
end

