-- ==== Sys2Proof/Laws/Tables.lean ====
section
/-! SUPPORT. Laws of the tables of 256 entries and of the list of symbols. -/

namespace Sys2Proof.Machine

section
variable {α : Type} (t : ByteTable α) (x y : Byte) (v : α)

@[simp] theorem readTable_writeTable_self : readTable (writeTable t x v) x = v := by
  simp [readTable, writeTable]

theorem readTable_writeTable : readTable (writeTable t x v) y = if y = x then v else readTable t y := by
  simp only [readTable, writeTable, List.getElem_set]
  by_cases h : y = x
  · subst h; simp
  · have : x.toNat ≠ y.toNat := fun e => h (BitVec.eq_of_toNat_eq e.symm)
    simp [h, this]

@[simp] theorem readTable_fill : readTable (ByteTable.fill v) x = v := by
  simp only [readTable, ByteTable.fill, List.getElem_replicate]

theorem ByteTable_ext (t u : ByteTable α) (h : ∀ x, readTable t x = readTable u x) : t = u := by
  obtain ⟨l, hl⟩ := t
  obtain ⟨m, hm⟩ := u
  have e : l = m := by
    apply List.ext_getElem (hl.trans hm.symm)
    intro i h1 h2
    have hi := h (BitVec.ofNat 8 i)
    have e : (BitVec.ofNat 8 i).toNat = i := by simp; omega
    simpa [readTable, e] using hi
  subst e
  rfl

end

theorem mem_symbols (x : Byte) : x ∈ symbols := by
  simp only [symbols, List.mem_map, List.mem_range]
  exact ⟨x.toNat, x.isLt, by simp⟩

theorem symbols_sorted : symbols.Pairwise (· < ·) := by
  unfold symbols
  rw [List.pairwise_map]
  refine List.Pairwise.imp_of_mem ?_ (List.pairwise_lt_range)
  intro a b ha hb h
  rw [List.mem_range] at ha hb
  rw [BitVec.lt_def]; simp; omega

theorem symbols_nodup : symbols.Nodup := symbols_sorted.imp (fun h => by rw [BitVec.lt_def] at h; intro e; subst e; omega)

theorem symbols_length : symbols.length = 256 := by simp [symbols]

end Sys2Proof.Machine
end

