-- ==== Sys2Proof/Laws/Queue.lean ====
section
/-! SUPPORT. Laws of node weights and of the priority queue (41_tree.md R140, R141, R148, R149). -/

namespace Sys2Proof.Machine

theorem wt_of_getElem? {node : List Node} {i : Nat} {n : Node} (h : node[i]? = some n) : wt node i = n.weight := by
  simp [wt, h]

theorem wt_append_left {node l : List Node} {i : Nat} (h : i < node.length) : wt (node ++ l) i = wt node i := by
  simp [wt, List.getElem?_append_left h]

@[simp] theorem wt_append_length (node : List Node) (n : Node) : wt (node ++ [n]) node.length = n.weight := by
  simp [wt]

theorem Before_append {node l : List Node} {i j : Nat} (hi : i < node.length) (hj : j < node.length) :
    Before (node ++ l) i j ↔ Before node i j := by
  simp [Before, wt_append_left hi, wt_append_left hj]

theorem Before.wt_le {node : List Node} {i j : Nat} (h : Before node i j) : wt node i ≤ wt node j := by
  rcases h with h | ⟨h, _⟩
  · exact BitVec.le_of_lt h
  · exact h ▸ BitVec.le_refl _

theorem insertAt_perm {α : Type} (xs : List α) (k : Nat) (v : α) : (insertAt xs k v).Perm (v :: xs) := by
  have h := List.perm_middle (a := v) (l₁ := xs.take k) (l₂ := xs.drop k)
  simpa [insertAt] using h

theorem pqInsert_perm (node : List Node) (pq : List Nat) (x : Nat) : (pqInsert node pq x).Perm (x :: pq) :=
  insertAt_perm _ _ _

@[simp] theorem mem_pqInsert (node : List Node) (pq : List Nat) (x y : Nat) :
    y ∈ pqInsert node pq x ↔ y = x ∨ y ∈ pq := by
  rw [(pqInsert_perm node pq x).mem_iff, List.mem_cons]

@[simp] theorem pqInsert_length (node : List Node) (pq : List Nat) (x : Nat) :
    (pqInsert node pq x).length = pq.length + 1 := by
  rw [(pqInsert_perm node pq x).length_eq, List.length_cons]

/-- Counting the entries that satisfy a downward closed predicate splits a sorted list. -/
theorem take_drop_countP {α : Type} (p : α → Bool) (xs : List α)
    (h : xs.Pairwise fun a b => p b = true → p a = true) :
    (∀ a ∈ xs.take (xs.countP p), p a = true) ∧ (∀ a ∈ xs.drop (xs.countP p), p a = false) := by
  induction xs with
  | nil => simp
  | cons a xs ih =>
    rw [List.pairwise_cons] at h
    cases ha : p a with
    | true =>
      rw [List.countP_cons_of_pos ha]
      simpa [ha] using ih h.2
    | false =>
      have hz : xs.countP p = 0 := by
        rw [List.countP_eq_zero]
        intro b hb hp
        rw [h.1 b hb hp] at ha; cases ha
      have : (a :: xs).countP p = 0 := by simp [ha, hz]
      rw [this]
      refine ⟨by simp, ?_⟩
      intro b hb
      simp only [List.drop_zero, List.mem_cons] at hb
      rcases hb with rfl | hb
      · exact ha
      · rw [List.countP_eq_zero] at hz
        simpa using hz b hb

theorem pqInsert_split {node : List Node} {pq : List Nat} (x : Nat)
    (h : pq.Pairwise fun i j => wt node i ≤ wt node j) :
    ∃ pre post, pq = pre ++ post ∧ pqInsert node pq x = pre ++ x :: post ∧
      (∀ j ∈ pre, wt node j ≤ wt node x) ∧ (∀ j ∈ post, wt node x < wt node j) := by
  have hs := take_drop_countP (fun j => decide (wt node j ≤ wt node x)) pq
    (h.imp fun hab hb => by simp only [decide_eq_true_eq] at *; exact BitVec.le_trans hab hb)
  refine ⟨_, _, (List.take_append_drop (pq.countP fun j => wt node j ≤ wt node x) pq).symm, ?_, ?_, ?_⟩
  · simp [pqInsert, insertAt]
  · intro j hj; simpa using hs.1 j hj
  · intro j hj; simpa using hs.2 j hj

theorem pqInsert_before {node : List Node} {pq : List Nat} {x : Nat}
    (h : pq.Pairwise (Before node)) (hx : ∀ j ∈ pq, j < x) : (pqInsert node pq x).Pairwise (Before node) := by
  obtain ⟨pre, post, rfl, he, h1, h2⟩ := pqInsert_split x (h.imp Before.wt_le)
  rw [he]
  rw [List.pairwise_append] at h ⊢
  refine ⟨h.1, ?_, ?_⟩
  · rw [List.pairwise_cons]
    exact ⟨fun j hj => .inl (h2 j hj), h.2.1⟩
  · intro a ha b hb
    rcases List.mem_cons.1 hb with rfl | hb
    · rcases Nat.lt_or_eq_of_le (BitVec.le_def.1 (h1 a ha)) with hl | hl
      · exact .inl (BitVec.lt_def.2 hl)
      · exact .inr ⟨BitVec.eq_of_toNat_eq hl, hx a (by simp [ha])⟩
    · exact h.2.2 a ha b hb

end Sys2Proof.Machine
end

