-- ==== Sys2Proof/Laws/Arena.lean ====
section
/-! SUPPORT. Laws of a well-formed arena (10_state.md R26): what appending a leaf or a merged node keeps, and how many nodes there are. -/

namespace Sys2Proof.Machine

@[simp] theorem childLinks_append (l m : List Node) : childLinks (l ++ m) = childLinks l ++ childLinks m := by
  simp [childLinks]

@[simp] theorem childLinks_nil : childLinks [] = [] := rfl
@[simp] theorem childLinks_leaf (x : Byte) (w : Word) : childLinks [.leaf x w] = [] := rfl
@[simp] theorem childLinks_internal (w : Word) (a b : Nat) : childLinks [.internal w a b] = [a, b] := rfl

namespace Forest

variable {node : List Node} {n : Nat} {held : List Nat}

theorem perm (h : Forest node n held) {held' : List Nat} (hp : held.Perm held') : Forest node n held' :=
  { h with owned := (List.Perm.append_left _ hp.symm).trans h.owned }

theorem held_lt (h : Forest node n held) {i : Nat} (hi : i ∈ held) : i < node.length := by
  have := h.owned.mem_iff (a := i)
  rw [List.mem_append, List.mem_range] at this
  exact this.1 (.inr hi)

theorem held_nodup (h : Forest node n held) : held.Nodup := by
  have := h.owned.nodup_iff.2 List.nodup_range
  exact (List.nodup_append.1 this).2.1

theorem not_child (h : Forest node n held) {i : Nat} (hi : i ∈ held) : i ∉ childLinks node := by
  have := h.owned.nodup_iff.2 List.nodup_range
  intro hc
  exact (List.nodup_append.1 this).2.2 i hc i hi rfl

theorem children_length (h : Forest node n held) : (childLinks node).length = 2 * (node.length - n) := by
  have key : ∀ l : List Node, (∀ m ∈ l, m.isLeaf = false) → (childLinks l).length = 2 * l.length := by
    intro l hl
    induction l with
    | nil => rfl
    | cons m l ih =>
      have h1 := hl m (by simp)
      have h2 := ih fun m' hm' => hl m' (by simp [hm'])
      cases m with
      | leaf x w => simp [Node.isLeaf] at h1
      | internal w a b =>
        rw [show (Node.internal w a b :: l) = [Node.internal w a b] ++ l from rfl, childLinks_append]
        simp [h2]; omega
  have key0 : ∀ l : List Node, (∀ m ∈ l, m.isLeaf = true) → childLinks l = [] := by
    intro l hl
    induction l with
    | nil => rfl
    | cons m l ih =>
      have h1 := hl m (by simp)
      have h2 := ih fun m' hm' => hl m' (by simp [hm'])
      cases m with
      | leaf x w => rw [show (Node.leaf x w :: l) = [Node.leaf x w] ++ l from rfl, childLinks_append]; simp [h2]
      | internal w a b => simp [Node.isLeaf] at h1
  have ht : childLinks (node.take n) = [] := by
    apply key0
    intro m hm
    obtain ⟨i, hi⟩ := List.mem_iff_getElem?.1 hm
    rw [List.getElem?_take] at hi
    split at hi
    · rename_i hlt; exact (h.leavesFirst i m hi).2 hlt
    · cases hi
  have hd : (childLinks (node.drop n)).length = 2 * (node.drop n).length := by
    apply key
    intro m hm
    obtain ⟨i, hi⟩ := List.mem_iff_getElem?.1 hm
    rw [List.getElem?_drop] at hi
    have := (h.leavesFirst (n + i) m hi)
    rw [Bool.eq_false_iff]
    intro ht
    exact absurd (this.1 ht) (by omega)
  have hsplit := congrArg (fun l => (childLinks l).length) (List.take_append_drop n node)
  simp only [childLinks_append, List.length_append, ht, hd, List.length_drop, List.length_nil] at hsplit
  omega

/-- The count of nodes: each merge turns two places into one. -/
theorem size (h : Forest node n held) : node.length + held.length = 2 * n := by
  have h1 := h.owned.length_eq
  have h2 := h.children_length
  have h3 := h.leafCount.1
  simp only [List.length_append, List.length_range] at h1
  omega

theorem empty : Forest [] 0 [] where
  owned := by simp
  links := by simp
  leavesFirst := by simp
  leavesAscend := by simp
  leafCount := by simp

theorem addLeaf (h : Forest node n held) (x : Byte) (w : Word) (hn : node.length = n) (hm : n < Config.maxLeaves)
    (hx : ∀ (i : Nat) y wy, node[i]? = some (.leaf y wy) → y < x) :
    Forest (node ++ [.leaf x w]) (n + 1) (node.length :: held) where
  owned := by
    rw [childLinks_append, childLinks_leaf, List.append_nil, List.length_append, List.length_singleton, List.range_succ]
    exact (List.perm_middle.trans (List.Perm.cons _ h.owned)).trans (List.perm_append_singleton _ _).symm
  links := by
    intro i w' c0 c1 hi
    rw [List.getElem?_append] at hi
    split at hi
    · rename_i hlt
      have hl := h.links i w' c0 c1 hi
      rw [wt_append_left (by omega), wt_append_left (by omega)]
      exact hl
    · rename_i hlt
      obtain rfl | hne := Nat.eq_or_lt_of_le (Nat.not_lt.1 hlt)
      · simp at hi
      · rw [List.getElem?_eq_none (by simp; omega)] at hi; cases hi
  leavesFirst := by
    intro i m hi
    rw [List.getElem?_append] at hi
    split at hi
    · rename_i hlt
      have := h.leavesFirst i m hi
      rw [this]; omega
    · rename_i hlt
      obtain rfl | hne := Nat.eq_or_lt_of_le (Nat.not_lt.1 hlt)
      · simp at hi; subst hi; simp [Node.isLeaf]; omega
      · rw [List.getElem?_eq_none (by simp; omega)] at hi; cases hi
  leavesAscend := by
    intro i j y z wy wz hij hi hj
    have hjl : j < node.length + 1 := by
      have := (List.getElem?_eq_some_iff.1 hj).1
      simpa using this
    have hil : i < node.length := by omega
    rw [List.getElem?_append_left hil] at hi
    rw [List.getElem?_append] at hj
    split at hj
    · exact h.leavesAscend i j y z wy wz hij hi hj
    · have : j = node.length := by omega
      subst this
      simp at hj
      obtain ⟨rfl, rfl⟩ := hj
      exact hx i y wy hi
  leafCount := by simp; omega

theorem merge {a b : Nat} {rest : List Nat} (h : Forest node n (a :: b :: rest))
    (hs : (wt node a).toNat + (wt node b).toNat < 2 ^ 32) :
    Forest (node ++ [.internal (wt node a + wt node b) a b]) n (node.length :: rest) where
  owned := by
    rw [childLinks_append, childLinks_internal, List.length_append, List.length_singleton, List.range_succ]
    refine List.Perm.trans ?_ (List.perm_append_singleton _ _).symm
    refine List.Perm.trans List.perm_middle (List.Perm.cons _ ?_)
    simpa using h.owned
  links := by
    have ha := h.held_lt (i := a) (by simp)
    have hb := h.held_lt (i := b) (by simp)
    have hab : a ≠ b := by have := h.held_nodup; simp at this; tauto
    intro i w' c0 c1 hi
    rw [List.getElem?_append] at hi
    split at hi
    · rename_i hlt
      have hl := h.links i w' c0 c1 hi
      rw [wt_append_left (by omega), wt_append_left (by omega)]
      exact hl
    · rename_i hlt
      obtain rfl | hne := Nat.eq_or_lt_of_le (Nat.not_lt.1 hlt)
      · simp at hi
        obtain ⟨rfl, rfl, rfl⟩ := hi
        rw [wt_append_left ha, wt_append_left hb, BitVec.toNat_add, Nat.mod_eq_of_lt hs]
        exact ⟨ha, hb, hab, rfl⟩
      · rw [List.getElem?_eq_none (by simp; omega)] at hi; cases hi
  leavesFirst := by
    intro i m hi
    have hc := h.leafCount.1
    rw [List.getElem?_append] at hi
    split at hi
    · exact h.leavesFirst i m hi
    · rename_i hlt
      obtain rfl | hne := Nat.eq_or_lt_of_le (Nat.not_lt.1 hlt)
      · simp at hi; subst hi; simp [Node.isLeaf]; omega
      · rw [List.getElem?_eq_none (by simp; omega)] at hi; cases hi
  leavesAscend := by
    intro i j y z wy wz hij hi hj
    have hjl : j < node.length + 1 := by
      have := (List.getElem?_eq_some_iff.1 hj).1
      simpa using this
    have hil : i < node.length := by omega
    rw [List.getElem?_append_left hil] at hi
    rw [List.getElem?_append] at hj
    split at hj
    · exact h.leavesAscend i j y z wy wz hij hi hj
    · have : j = node.length := by omega
      subst this
      simp at hj
  leafCount := by have := h.leafCount; simp; omega
end Forest

end Sys2Proof.Machine
end

