-- ==== Sys2Proof/Laws/Exec.lean ====
section
/-! SUPPORT. What each command answers, by the tree state it meets. -/

namespace Sys2Proof.Machine

/-- NONE or BUILDING: the states where GENTAB, DSTART and DEND have no meaning (R271). -/
def TreeState.unbuilt : TreeState → Prop
  | .tNone | .tBuilding => True
  | .tReady _ _ | .tEmpty => False

section
variable {s : State} {r c : Nat}

theorem finishTree_other (w : Word) (h : s.tstate ≠ .tBuilding) : finishTree w s = .next (s.recordError .sequenceError w) := by
  unfold finishTree
  split
  · rename_i hs; exact absurd hs h
  · rfl
  · rfl
  · rfl

theorem execGentab_ready (h : s.tstate = .tReady r c) {t : ByteTable (List Bool)} (ht : treeTable s.node r = .ok t) :
    execGentab s = .next { s with code := t, tableValid := true } := by
  unfold execGentab; rw [h]; simp only [ht]

theorem execGentab_empty (h : s.tstate = .tEmpty) : execGentab s = .next { s with code := emptyTable, tableValid := true } := by
  unfold execGentab; rw [h]

theorem execGentab_unbuilt (h : s.tstate.unbuilt) : execGentab s = .next (s.recordError .sequenceError (encode .gentab)) := by
  unfold execGentab; split <;> simp_all [TreeState.unbuilt, raise]

theorem execDstart_ready (h : s.tstate = .tReady r c) : execDstart s = .next { s with tstate := .tReady r r, decDone := false } := by
  unfold execDstart; rw [h]

theorem execDstart_empty (h : s.tstate = .tEmpty) : execDstart s = .next { s with decDone := false } := by
  unfold execDstart; rw [h]

theorem execDstart_unbuilt (h : s.tstate.unbuilt) : execDstart s = .next (s.recordError .sequenceError (encode .dstart)) := by
  unfold execDstart; split <;> simp_all [TreeState.unbuilt, raise]

theorem execDec_ready (h : s.tstate = .tReady r c) {d : Byte} {b : Bool} (hd : bitOfDigit d = some b) :
    execDec d s = walkBit b r c { s with decDone := false } := by
  unfold execDec; rw [h]; simp only [hd]

theorem execDec_invalid (h : s.tstate = .tReady r c) {d : Byte} (hd : bitOfDigit d = none) :
    execDec d s = .next (s.recordError .invalidBit (encode (.dec d))) := by
  unfold execDec; rw [h]; simp only [hd, raise]

theorem execDec_noTree (h : ∀ r c, s.tstate ≠ .tReady r c) (d : Byte) :
    execDec d s = .next (s.recordError .noTree (encode (.dec d))) := by
  unfold execDec; split <;> simp_all [raise]

theorem execDend_root (h : s.tstate = .tReady r r) : execDend s = .next { s with decDone := true } := by
  unfold execDend; rw [h]; simp

theorem execDend_mid (h : s.tstate = .tReady r c) (hc : c ≠ r) : execDend s = .next (s.recordError .truncatedStream (encode .dend)) := by
  unfold execDend; rw [h]; simp [hc, raise]

theorem execDend_empty (h : s.tstate = .tEmpty) : execDend s = .next { s with decDone := true } := by
  unfold execDend; rw [h]

theorem execDend_unbuilt (h : s.tstate.unbuilt) : execDend s = .next (s.recordError .sequenceError (encode .dend)) := by
  unfold execDend; split <;> simp_all [TreeState.unbuilt, raise]

theorem execEnc_entry {x : Byte} (h : s.codeLen x ≠ 0) : execEnc x s = .next (s.emit ((s.codeOf x).map digitOfBit)) := by
  unfold execEnc; rw [if_neg h]

theorem execEnc_unknown {x : Byte} (h : s.codeLen x = 0) : execEnc x s = .next (s.recordError .unknownSymbol (encode (.enc x))) := by
  unfold execEnc; rw [if_pos h]; rfl
end

end Sys2Proof.Machine
end

