-- ==== Sys2Proof/Laws/Merge.lean ====
section
/-! SUPPORT. All that `merge_one` and the merge loop can do (41_tree.md R143, R146). -/

namespace Sys2Proof.Machine

theorem exactSum_toNat (a b : Word) : (exactSum a b).toNat = a.toNat + b.toNat := by
  unfold exactSum
  rw [BitVec.toNat_add, BitVec.toNat_setWidth, BitVec.toNat_setWidth]
  have := a.isLt; have := b.isLt; omega

theorem exactSum_low (a b : Word) : (exactSum a b).setWidth 32 = a + b := by
  apply BitVec.eq_of_toNat_eq
  rw [BitVec.toNat_setWidth, exactSum_toNat, BitVec.toNat_add]

/-- The state after merging the two front nodes `a` and `b` of the queue. -/
def mergedState (s : State) (a b : Nat) (rest : List Nat) : State :=
  let node := s.node ++ [.internal (wt s.node a + wt s.node b) a b]
  { s with node := node, pq := pqInsert node rest s.node.length }

theorem mergeOne_short {s : State} (h : s.pq.length < 2) : mergeOne s = .error .emptyQueue := by
  unfold mergeOne
  match hq : s.pq with
  | [] => rfl
  | [a] => rfl
  | a :: b :: r => simp [hq] at h

theorem mergeOne_cons {s : State} {a b : Nat} {rest : List Nat} (h : s.pq = a :: b :: rest) :
    mergeOne s = if 2 ^ 32 ≤ (wt s.node a).toNat + (wt s.node b).toNat then .error .weightOverflow
      else .ok (mergedState s a b rest) := by
  unfold mergeOne
  rw [h]
  simp only [pqExtractMin, exactSum_toNat, exactSum_low, mergedState]

/-- All that `merge_one` can do. -/
theorem mergeOne_ok {s t : State} (h : mergeOne s = .ok t) :
    ∃ a b rest, s.pq = a :: b :: rest ∧ (wt s.node a).toNat + (wt s.node b).toNat < 2 ^ 32 ∧ t = mergedState s a b rest := by
  match hq : s.pq with
  | [] => rw [mergeOne_short (by simp [hq])] at h; cases h
  | [a] => rw [mergeOne_short (by simp [hq])] at h; cases h
  | a :: b :: r =>
    rw [mergeOne_cons hq] at h
    split at h
    · cases h
    · rename_i hlt
      exact ⟨a, b, r, rfl, by omega, (Except.ok.inj h).symm⟩

theorem mergeOne_error {s : State} {e : HufError} (h : mergeOne s = .error e) :
    (e = .emptyQueue ∧ s.pq.length < 2) ∨
    (e = .weightOverflow ∧ ∃ a b rest, s.pq = a :: b :: rest ∧ 2 ^ 32 ≤ (wt s.node a).toNat + (wt s.node b).toNat) := by
  match hq : s.pq with
  | [] => rw [mergeOne_short (by simp [hq])] at h; cases h; simp
  | [a] => rw [mergeOne_short (by simp [hq])] at h; cases h; simp
  | a :: b :: r =>
    rw [mergeOne_cons hq] at h
    split at h
    · rename_i hle; cases h; exact .inr ⟨rfl, a, b, r, rfl, hle⟩
    · cases h

/-- The sum of the weights of the nodes of a list. -/
def weightSum (node : List Node) (l : List Nat) : Nat := (l.map fun i => (wt node i).toNat).sum

@[simp] theorem weightSum_nil (node : List Node) : weightSum node [] = 0 := rfl
@[simp] theorem weightSum_cons (node : List Node) (i : Nat) (l : List Nat) :
    weightSum node (i :: l) = (wt node i).toNat + weightSum node l := by simp [weightSum]

theorem weightSum_perm {node : List Node} {l m : List Nat} (h : l.Perm m) : weightSum node l = weightSum node m :=
  (h.map _).sum_eq

theorem weightSum_append_node {node more : List Node} {l : List Nat} (h : ∀ i ∈ l, i < node.length) :
    weightSum (node ++ more) l = weightSum node l := by
  unfold weightSum
  congr 1
  apply List.map_congr_left
  intro i hi
  rw [wt_append_left (h i hi)]

/-- A half-built tree: the arena and the sorted queue between BINIT and FINISH. -/
structure Building (node : List Node) (n : Nat) (pq : List Nat) : Prop where
  forest : Forest node n pq
  sorted : pq.Pairwise (Before node)

theorem Building.merged {s : State} {a b : Nat} {rest : List Nat} (h : Building s.node s.nleaves s.pq)
    (hq : s.pq = a :: b :: rest) (hs : (wt s.node a).toNat + (wt s.node b).toNat < 2 ^ 32) :
    Building (mergedState s a b rest).node s.nleaves (mergedState s a b rest).pq ∧
      weightSum (mergedState s a b rest).node (mergedState s a b rest).pq = weightSum s.node s.pq := by
  rw [hq] at h
  have hrest : ∀ i ∈ rest, i < s.node.length := fun i hi => h.forest.held_lt (by simp [hi])
  have hsort : rest.Pairwise (Before s.node) := (List.pairwise_cons.1 (List.pairwise_cons.1 h.sorted).2).2
  refine ⟨⟨(h.forest.merge hs).perm (pqInsert_perm _ _ _).symm, ?_⟩, ?_⟩
  · apply pqInsert_before
    · refine hsort.imp_of_mem ?_
      intro i j hi hj hij
      exact (Before_append (hrest i hi) (hrest j hj)).2 hij
    · exact hrest
  · rw [hq]
    simp only [mergedState]
    rw [weightSum_perm (pqInsert_perm _ _ _)]
    simp only [weightSum_cons, wt_append_length, Node.weight]
    rw [weightSum_append_node hrest, BitVec.toNat_add, Nat.mod_eq_of_lt hs]
    omega

/-- What a run of the merge loop keeps, ending in `t`. -/
structure MergedInto (s t : State) : Prop where
  building : Building t.node s.nleaves t.pq
  sum : weightSum t.node t.pq = weightSum s.node s.pq
  grows : s.node <+: t.node
  frame : t = { s with node := t.node, pq := t.pq }
  nonempty : s.pq ≠ [] → t.pq ≠ []

theorem mergeLoop_spec (fuel : Nat) (s : State) (h : Building s.node s.nleaves s.pq) (hf : s.pq.length ≤ fuel + 1) :
    (∃ t, mergeLoop fuel s = .ok t ∧ MergedInto s t ∧ t.pq.length ≤ 1) ∨
    (∃ t a b rest, mergeLoop fuel s = .error (.weightOverflow, t) ∧ MergedInto s t ∧ t.pq = a :: b :: rest ∧
      2 ^ 32 ≤ (wt t.node a).toNat + (wt t.node b).toNat) := by
  induction fuel generalizing s with
  | zero =>
    exact .inl ⟨s, rfl, ⟨h, rfl, List.prefix_refl _, rfl, id⟩, hf⟩
  | succ fuel ih =>
    unfold mergeLoop
    by_cases hl : 1 < s.pq.length
    · rw [if_pos hl]
      cases hm : mergeOne s with
      | error e =>
        rcases mergeOne_error hm with ⟨_, hlt⟩ | ⟨rfl, a, b, rest, hq, hle⟩
        · omega
        · exact .inr ⟨s, a, b, rest, rfl, ⟨h, rfl, List.prefix_refl _, rfl, id⟩, hq, hle⟩
      | ok t =>
        obtain ⟨a, b, rest, hq, hlt, rfl⟩ := mergeOne_ok hm
        have hb := h.merged hq hlt
        have hlen : (mergedState s a b rest).pq.length + 1 = s.pq.length := by simp [mergedState, hq]
        have hne : (mergedState s a b rest).pq ≠ [] := by
          intro he; rw [he] at hlen; simp [hq] at hlen
        have trans : ∀ u, MergedInto (mergedState s a b rest) u → MergedInto s u := by
          intro u hu
          refine ⟨hu.building, hu.sum.trans hb.2, List.IsPrefix.trans (List.prefix_append _ _) hu.grows, ?_, fun _ => hu.nonempty hne⟩
          rw [hu.frame]; rfl
        rcases ih (mergedState s a b rest) hb.1 (by omega) with ⟨u, h1, h2, h3⟩ | ⟨u, a', b', r', h1, h2, h3⟩
        · exact .inl ⟨u, h1, trans u h2, h3⟩
        · exact .inr ⟨u, a', b', r', h1, trans u h2, h3⟩
    · rw [if_neg hl]
      exact .inl ⟨s, rfl, ⟨h, rfl, List.prefix_refl _, rfl, id⟩, by omega⟩

end Sys2Proof.Machine
end

