-- ==== Sys2Proof/Laws/Load.lean ====
section
/-! SUPPORT. All that the pseudocode of BINIT does (41_tree.md R144). -/

namespace Sys2Proof.Machine

/-- The leaf of a symbol with its weight in a table. -/
def leafOf (weight : ByteTable Word) (x : Byte) : Node := .leaf x (readTable weight x)

/-- What BINIT's loop has made of a state `s` after the symbols `xs`. -/
structure Loaded (s t : State) (xs : List Byte) : Prop where
  node : t.node = s.node ++ (xs.filter fun x => 0#32 < readTable s.weight x).map (leafOf s.weight)
  nleaves : t.nleaves = t.node.length
  building : Building t.node t.nleaves t.pq
  sum : weightSum t.node t.pq = weightSum s.node s.pq + (xs.map fun x => (readTable s.weight x).toNat).sum
  frame : t = { s with node := t.node, pq := t.pq, nleaves := t.nleaves }

theorem foldl_loadLeaf (xs : List Byte) (s : State) (hn : s.nleaves = s.node.length)
    (hb : Building s.node s.nleaves s.pq) (hx : xs.Pairwise (· < ·)) (hm : s.nleaves + xs.length ≤ Config.maxLeaves)
    (hlt : ∀ (i : Nat) y wy, s.node[i]? = some (.leaf y wy) → ∀ x ∈ xs, y < x) :
    Loaded s (xs.foldl loadLeaf s) xs := by
  induction xs generalizing s with
  | nil => exact ⟨by simp, hn, hb, by simp, rfl⟩
  | cons x xs ih =>
    rw [List.pairwise_cons] at hx
    simp only [List.length_cons] at hm
    rw [List.foldl_cons]
    by_cases hw : 0#32 < s.weightOf x
    · have hl : ∀ i ∈ s.pq, i < s.node.length := fun i hi => hb.forest.held_lt hi
      have e : loadLeaf s x = { s with
          node := s.node ++ [.leaf x (s.weightOf x)],
          pq := pqInsert (s.node ++ [.leaf x (s.weightOf x)]) s.pq s.node.length, nleaves := s.nleaves + 1 } := by
        simp only [loadLeaf, if_pos hw]
      rw [e]
      have hb' : Building (s.node ++ [.leaf x (s.weightOf x)]) (s.nleaves + 1)
          (pqInsert (s.node ++ [.leaf x (s.weightOf x)]) s.pq s.node.length) := by
        refine ⟨?_, ?_⟩
        · refine (hb.forest.addLeaf x _ hn.symm (by omega) ?_).perm (pqInsert_perm _ _ _).symm
          intro i y wy hi
          exact hlt i y wy hi x (by simp)
        · apply pqInsert_before
          · exact hb.sorted.imp_of_mem fun hi hj hij => (Before_append (hl _ hi) (hl _ hj)).2 hij
          · exact hl
      have := ih { s with
          node := s.node ++ [.leaf x (s.weightOf x)],
          pq := pqInsert (s.node ++ [.leaf x (s.weightOf x)]) s.pq s.node.length, nleaves := s.nleaves + 1 }
        (by simp [hn]) hb' hx.2 (by simp only; omega) (by
        intro i y wy hi z hz
        rw [List.getElem?_append] at hi
        split at hi
        · exact hlt i y wy hi z (by simp [hz])
        · rename_i hge
          obtain rfl | hne := Nat.eq_or_lt_of_le (Nat.not_lt.1 hge)
          · simp at hi
            obtain ⟨rfl, rfl⟩ := hi
            exact hx.1 z hz
          · rw [List.getElem?_eq_none (by simp; omega)] at hi; cases hi)
      refine ⟨?_, this.nleaves, this.building, ?_, ?_⟩
      · rw [this.node]
        have hw' : (0#32 < readTable s.weight x) := hw
        simp only [List.filter_cons, hw', decide_true, if_true, List.map_cons, List.append_assoc, List.singleton_append, leafOf, State.weightOf]
      · rw [this.sum]
        simp only [List.map_cons, List.sum_cons]
        rw [weightSum_perm (pqInsert_perm _ _ _), weightSum_cons, wt_append_length, weightSum_append_node hl]
        simp only [Node.weight, State.weightOf]
        omega
      · exact this.frame.trans rfl
    · have e : loadLeaf s x = s := by simp only [loadLeaf, if_neg hw]
      rw [e]
      have := ih s hn hb hx.2 (by omega) (fun i y wy hi z hz => hlt i y wy hi z (by simp [hz]))
      have hw' : ¬ (0#32 < readTable s.weight x) := hw
      have hz : (readTable s.weight x).toNat = 0 := by
        rw [BitVec.lt_def] at hw'; simpa using hw'
      refine ⟨?_, this.nleaves, this.building, ?_, this.frame⟩
      · rw [this.node]; simp [hw']
      · rw [this.sum]; simp [hz]

/-- Everything BINIT does (R144). -/
structure BinitOf (s t : State) : Prop where
  node : t.node = (participants s.weight).map (leafOf s.weight)
  nleaves : t.nleaves = (participants s.weight).length
  building : Building t.node t.nleaves t.pq
  sum : weightSum t.node t.pq = totalWeight s.weight
  frame : t = { s with node := t.node, pq := t.pq, nleaves := t.nleaves, tstate := .tBuilding, decDone := false, code := emptyTable, tableValid := false }

theorem loadQueue_spec (s : State) : BinitOf s (loadQueue s) := by
  have h := foldl_loadLeaf symbols { s with node := [], pq := [], nleaves := 0 } rfl
    ⟨Forest.empty, List.Pairwise.nil⟩ symbols_sorted (by simp [symbols_length, Config.maxLeaves]) (by simp)
  unfold loadQueue
  generalize symbols.foldl loadLeaf { s with node := [], pq := [], nleaves := 0 } = t at h
  have hnode : t.node = (participants s.weight).map (leafOf s.weight) := by
    rw [h.node]; simp [participants]
  refine ⟨hnode, ?_, h.building, ?_, ?_⟩
  · show t.nleaves = _
    rw [h.nleaves, hnode, List.length_map]
  · show weightSum t.node t.pq = _
    rw [h.sum]; simp [totalWeight]
  · rw [h.frame]

end Sys2Proof.Machine
end

