-- ==== Sys2Proof/Laws/Paths.lean ====
section
/-! SUPPORT. Laws of paths in a well-formed arena (42_codetable.md R180). -/

namespace Sys2Proof.Machine

namespace Path

variable {node : List Node} {n : Nat} {held : List Nat}

theorem trans {x y z : Nat} {p q : List Bool} (h : Path node x p y) (h' : Path node y q z) : Path node x (p ++ q) z := by
  induction h with
  | here x => exact h'
  | step hn _ ih => exact .step hn (ih h')

/-- The last step of a path that has one. -/
theorem last {x y : Nat} {p : List Bool} (h : Path node x p y) :
    (p = [] ∧ x = y) ∨ ∃ p' b j w c0 c1, p = p' ++ [b] ∧ Path node x p' j ∧ node[j]? = some (.internal w c0 c1) ∧ childOf b c0 c1 = y := by
  induction h with
  | here x => exact .inl ⟨rfl, rfl⟩
  | @step x y w c0 c1 b p hn hp ih =>
    right
    rcases ih with ⟨rfl, rfl⟩ | ⟨p', b', j, w', d0, d1, rfl, hp', hj, rfl⟩
    · exact ⟨[], b, x, w, c0, c1, rfl, .here x, hn, rfl⟩
    · exact ⟨b :: p', b', j, w', d0, d1, rfl, .step hn hp', hj, rfl⟩

theorem split {x z : Nat} {p q : List Bool} (h : Path node x (p ++ q) z) : ∃ y, Path node x p y ∧ Path node y q z := by
  induction p generalizing x with
  | nil => exact ⟨x, .here x, h⟩
  | cons b p ih =>
    cases h with
    | step hn hp =>
      obtain ⟨y, h1, h2⟩ := ih hp
      exact ⟨y, .step hn h1, h2⟩

/-- A path leads to one node. -/
theorem target {x y z : Nat} {p : List Bool} (h : Path node x p y) (h' : Path node x p z) : y = z := by
  induction h with
  | here x => cases h'; rfl
  | step hn _ ih =>
    cases h' with
    | step hn' hp' =>
      rw [hn] at hn'
      simp only [Option.some.injEq, Node.internal.injEq] at hn'
      obtain ⟨_, rfl, rfl⟩ := hn'
      exact ih hp'

theorem from_leaf {x y : Nat} {p : List Bool} {s : Byte} {w : Word} (hl : node[x]? = some (.leaf s w)) (h : Path node x p y) :
    p = [] ∧ y = x := by
  cases h with
  | here => exact ⟨rfl, rfl⟩
  | step hn _ => rw [hl] at hn; cases hn

theorem child_lt (hf : Forest node n held) {i : Nat} {w : Word} {c0 c1 : Nat} (b : Bool)
    (h : node[i]? = some (.internal w c0 c1)) : childOf b c0 c1 < i := by
  have := hf.links i w c0 c1 h
  cases b <;> simp [childOf] <;> omega

theorem le (hf : Forest node n held) {x y : Nat} {p : List Bool} (h : Path node x p y) : y + p.length ≤ x := by
  induction h with
  | here x => simp
  | @step x y w c0 c1 b p hn _ ih => have := child_lt hf b hn; simp; omega

/-- A path passes through internal nodes only, each below the one before it. -/
theorem length_le (hf : Forest node n held) {x y : Nat} {p : List Bool} (h : Path node x p y) (hp : p ≠ []) :
    p.length + n ≤ x + 1 := by
  induction h with
  | here x => exact absurd rfl hp
  | @step x y w c0 c1 b p hn hp' ih =>
    have h1 := child_lt hf b hn
    have h2 : ¬ x < n := by
      have := hf.leavesFirst x _ hn
      simp [Node.isLeaf] at this; omega
    by_cases he : p = []
    · subst he; simp; omega
    · have := ih he; simp; omega
end Path

namespace Forest

variable {node : List Node} {n : Nat} {held : List Nat}

theorem mem_childLinks {node : List Node} {c : Nat} : c ∈ childLinks node ↔ ∃ (i : Nat) (w : Word) (c0 c1 : Nat) (b : Bool), node[i]? = some (.internal w c0 c1) ∧ childOf b c0 c1 = c := by
  unfold childLinks
  rw [List.mem_flatMap]
  constructor
  · rintro ⟨m, hm, hc⟩
    obtain ⟨i, hi⟩ := List.mem_iff_getElem?.1 hm
    cases m with
    | leaf x w => simp [Node.children] at hc
    | internal w c0 c1 =>
      simp [Node.children] at hc
      rcases hc with rfl | rfl
      · exact ⟨i, w, c, c1, false, hi, rfl⟩
      · exact ⟨i, w, c0, c, true, hi, rfl⟩
  · rintro ⟨i, w, c0, c1, b, hi, rfl⟩
    refine ⟨_, List.mem_of_getElem? hi, ?_⟩
    cases b <;> simp [Node.children, childOf]

/-- No node has two parents (R26 (b)). -/
theorem parent_unique (h : Forest node n held) {i j : Nat} {u v : Bool} {w w' : Word} {a b a' b' : Nat}
    (hi : node[i]? = some (.internal w a b)) (hj : node[j]? = some (.internal w' a' b'))
    (hc : childOf u a b = childOf v a' b') : i = j ∧ u = v := by
  have hnd : (childLinks node).Nodup := (List.nodup_append.1 (h.owned.nodup_iff.2 List.nodup_range)).1
  unfold childLinks at hnd
  rw [List.nodup_flatMap] at hnd
  have key : ∀ i j : Nat, ∀ u v w a b w' a' b', i < j → node[i]? = some (.internal w a b) → node[j]? = some (.internal w' a' b') →
      childOf u a b ≠ childOf v a' b' := by
    intro i j u v w a b w' a' b' hij hi hj he
    obtain ⟨hil, hi⟩ := List.getElem?_eq_some_iff.1 hi
    obtain ⟨hjl, hj⟩ := List.getElem?_eq_some_iff.1 hj
    have := List.pairwise_iff_getElem.1 hnd.2 i j hil hjl hij
    simp only [Function.onFun, hi, hj, List.Disjoint, Node.children] at this
    refine this (a := childOf u a b) ?_ ?_
    · cases u <;> simp [childOf]
    · rw [he]; cases v <;> simp [childOf]
  rcases Nat.lt_trichotomy i j with hlt | rfl | hgt
  · exact absurd hc (key i j u v w a b w' a' b' hlt hi hj)
  · rw [hi] at hj
    simp only [Option.some.injEq, Node.internal.injEq] at hj
    obtain ⟨_, rfl, rfl⟩ := hj
    have := (h.links i w a b hi).2.2.1
    refine ⟨rfl, ?_⟩
    cases u <;> cases v <;> simp [childOf] at hc ⊢ <;> omega
  · exact absurd hc.symm (key j i v u w' a' b' w a b hgt hj hi)

theorem path_unique (h : Forest node n held) {x i : Nat} {p q : List Bool} (hp : Path node x p i) (hq : Path node x q i) : p = q := by
  induction hlen : p.length generalizing p q i with
  | zero =>
    have : p = [] := List.length_eq_zero_iff.1 hlen
    subst this
    have hx : x = i := by cases hp; rfl
    subst hx
    have := hq.le h
    exact (List.length_eq_zero_iff.1 (by omega)).symm
  | succ k ih =>
    rcases hp.last with ⟨rfl, _⟩ | ⟨p', b, j, w, c0, c1, rfl, hp', hj, hc⟩
    · simp at hlen
    · rcases hq.last with ⟨rfl, hxi⟩ | ⟨q', b', j', w', d0, d1, rfl, hq', hj', hc'⟩
      · have := hp.le h
        simp at this; omega
      · obtain ⟨rfl, rfl⟩ := h.parent_unique hj hj' (hc.trans hc'.symm)
        rw [ih hp' hq' (by simpa using hlen)]

/-- Leaves with one symbol are one leaf (R26 (c)). -/
theorem leaf_unique (h : Forest node n held) {i j : Nat} {x : Byte} {w w' : Word} (hi : node[i]? = some (.leaf x w))
    (hj : node[j]? = some (.leaf x w')) : i = j := by
  rcases Nat.lt_trichotomy i j with hlt | rfl | hgt
  · have := h.leavesAscend i j x x w w' hlt hi hj; rw [BitVec.lt_def] at this; omega
  · rfl
  · have := h.leavesAscend j i x x w' w hgt hj hi; rw [BitVec.lt_def] at this; omega

/-- Every node of a finished tree hangs below the root. -/
theorem reachable {root : Nat} (h : Forest node n [root]) {i : Nat} (hi : i < node.length) : ∃ p, Path node root p i := by
  induction hk : node.length - i using Nat.strongRecOn generalizing i with
  | ind k ih =>
    have hm : i ∈ childLinks node ++ [root] := h.owned.mem_iff.2 (List.mem_range.2 hi)
    rw [List.mem_append, mem_childLinks, List.mem_singleton] at hm
    rcases hm with ⟨j, w, c0, c1, b, hj, rfl⟩ | rfl
    · have hlt := Path.child_lt h b hj
      have hjl := (List.getElem?_eq_some_iff.1 hj).1
      obtain ⟨p, hp⟩ := ih (node.length - j) (by omega) hjl rfl
      exact ⟨p ++ [b], hp.trans (.step hj (.here _))⟩
    · exact ⟨[], .here _⟩

theorem root_eq {root : Nat} (h : Forest node n [root]) : node.length + 1 = 2 * n ∧ root + 1 = node.length := by
  have hs := h.size
  simp at hs
  refine ⟨hs, ?_⟩
  have hr := h.held_lt (i := root) (by simp)
  have hl : node.length - 1 < node.length := by omega
  obtain ⟨p, hp⟩ := h.reachable hl
  have := hp.le h
  omega
end Forest

end Sys2Proof.Machine
end

