-- ==== Sys2Proof/Laws/Visit.lean ====
section
/-! SUPPORT. All that the traversal of GENTAB does, and laws of codes (42_codetable.md R180 to R183). -/

namespace Sys2Proof.Machine

/-- All that `visit` does: each leaf below gets its path, and no other entry changes. -/
theorem visit_spec {node : List Node} {n : Nat} {held : List Nat} (h : Forest node n held) (fuel x : Nat) (p : List Bool)
    (t : ByteTable (List Bool)) (hx : x < node.length) (hf : x < fuel) :
    ∃ t', visit node fuel x p t = .ok t' ∧
      (∀ q i y w, Path node x q i → node[i]? = some (.leaf y w) → readTable t' y = p ++ q) ∧
      (∀ y, (∀ q i w, Path node x q i → node[i]? ≠ some (.leaf y w)) → readTable t' y = readTable t y) := by
  induction fuel generalizing x p t with
  | zero => omega
  | succ fuel ih =>
    unfold visit
    have hg : node[x]? = some node[x] := List.getElem?_eq_getElem hx
    match hm : node[x], hg with
    | .leaf s w, hg =>
      rw [hg]
      refine ⟨_, rfl, ?_, ?_⟩
      · intro q i y w' hp hi
        obtain ⟨rfl, rfl⟩ := hp.from_leaf (hg)
        rw [hg] at hi; cases hi
        simp
      · intro y hy
        rw [readTable_writeTable, if_neg]
        rintro rfl
        exact hy [] x w (.here x) hg
    | .internal w c0 c1, hg =>
      rw [hg]
      have h0 := Path.child_lt h false hg
      have h1 := Path.child_lt h true hg
      simp only [childOf, Bool.false_eq_true, if_false, if_true] at h0 h1
      obtain ⟨t1, e1, a1, b1⟩ := ih c0 (p ++ [false]) t (by omega) (by omega)
      obtain ⟨t2, e2, a2, b2⟩ := ih c1 (p ++ [true]) t1 (by omega) (by omega)
      refine ⟨t2, ?_, ?_, ?_⟩
      · simp only [e1, e2]
      · intro q i y w' hp hi
        cases hp with
        | here => rw [hg] at hi; cases hi
        | @step _ _ w2 d0 d1 b q hn hp =>
          rw [hg] at hn
          simp only [Option.some.injEq, Node.internal.injEq] at hn
          obtain ⟨_, rfl, rfl⟩ := hn
          cases b with
          | true =>
            rw [a2 q i y w' (by simpa [childOf] using hp) hi]; simp
          | false =>
            rw [b2 y, a1 q i y w' (by simpa [childOf] using hp) hi]
            · simp
            · intro q' i' w'' hp' hi'
              obtain rfl := h.leaf_unique hi hi'
              have := h.path_unique (.step (b := false) hg (by simpa [childOf] using hp)) (.step (b := true) hg (by simpa [childOf] using hp'))
              simp at this
      · intro y hy
        rw [b2, b1]
        · intro q i w' hp; exact hy (false :: q) i w' (.step hg (by simpa [childOf] using hp))
        · intro q i w' hp; exact hy (true :: q) i w' (.step hg (by simpa [childOf] using hp))

/-- What GENTAB makes of a finished tree: the table holds each leaf's code and nothing else. -/
theorem treeTable_spec {node : List Node} {n root : Nat} (h : Forest node n [root]) :
    ∃ t, treeTable node root = .ok t ∧ (∀ x p, IsCode node root x p → readTable t x = p) ∧
      (∀ x, (∀ (i : Nat) w, node[i]? ≠ some (.leaf x w)) → readTable t x = []) := by
  have hr := h.held_lt (i := root) (by simp)
  unfold treeTable
  have hg : node[root]? = some node[root] := List.getElem?_eq_getElem hr
  match hm : node[root], hg with
  | .leaf s w, hg =>
    rw [hg]
    refine ⟨_, rfl, ?_, ?_⟩
    · rintro x p ⟨i, w', hi, ⟨rfl, rfl⟩ | ⟨hne, hp⟩⟩
      · rw [hg] at hi; cases hi; simp
      · exact absurd (hp.from_leaf hg).2.symm hne
    · intro x hx
      rw [readTable_writeTable, if_neg]
      · simp [emptyTable]
      · rintro rfl; exact hx root w hg
  | .internal w c0 c1, hg =>
    rw [hg]
    obtain ⟨t, e, a, b⟩ := visit_spec h node.length root [] emptyTable hr hr
    refine ⟨t, e, ?_, ?_⟩
    · rintro x p ⟨i, w', hi, ⟨rfl, rfl⟩ | ⟨hne, hp⟩⟩
      · rw [hg] at hi; cases hi
      · simpa using a p i x w' hp hi
    · intro x hx
      rw [b x (fun q i w' _ => hx i w')]
      simp [emptyTable]

theorem isCode_ne_nil {node : List Node} {root : Nat} {x : Byte} {p : List Bool} (h : IsCode node root x p) : p ≠ [] := by
  obtain ⟨i, w, hi, ⟨rfl, rfl⟩ | ⟨hne, hp⟩⟩ := h
  · simp
  · rintro rfl; cases hp; exact hne rfl

theorem isCode_exists {node : List Node} {n root : Nat} (h : Forest node n [root]) {i : Nat} {x : Byte} {w : Word}
    (hi : node[i]? = some (.leaf x w)) : ∃ p, IsCode node root x p := by
  by_cases he : root = i
  · exact ⟨_, i, w, hi, .inl ⟨he, rfl⟩⟩
  · obtain ⟨p, hp⟩ := h.reachable (List.getElem?_eq_some_iff.1 hi).1
    exact ⟨p, i, w, hi, .inr ⟨he, hp⟩⟩

theorem isCode_unique {node : List Node} {n root : Nat} (h : Forest node n [root]) {x : Byte} {p q : List Bool}
    (hp : IsCode node root x p) (hq : IsCode node root x q) : p = q := by
  obtain ⟨t, _, ht, _⟩ := treeTable_spec h
  rw [← ht x p hp, ← ht x q hq]

/-- An entry of the table is the code of a leaf. -/
theorem treeTable_entry {node : List Node} {n root : Nat} (h : Forest node n [root]) {t : ByteTable (List Bool)}
    (ht : treeTable node root = .ok t) (x : Byte) : (readTable t x = [] ∧ ∀ (i : Nat) w, node[i]? ≠ some (.leaf x w)) ∨ IsCode node root x (readTable t x) := by
  obtain ⟨t', e, a, b⟩ := treeTable_spec h
  rw [ht] at e; cases e
  by_cases hx : ∀ (i : Nat) w, node[i]? ≠ some (.leaf x w)
  · exact .inl ⟨b x hx, hx⟩
  · push Not at hx
    obtain ⟨i, w, hi⟩ := hx
    obtain ⟨p, hp⟩ := isCode_exists h hi
    rw [a x p hp]; exact .inr hp

theorem isCode_prefix_free {node : List Node} {root : Nat} {x y : Byte} {p q : List Bool}
    (hp : IsCode node root x p) (hq : IsCode node root y q) (hpq : p <+: q) : x = y := by
  obtain ⟨i, w, hi, ⟨rfl, rfl⟩ | ⟨hne, hp⟩⟩ := hp
  · obtain ⟨j, w', hj, ⟨rfl, rfl⟩ | ⟨hne', hq⟩⟩ := hq
    · rw [hi] at hj; cases hj; rfl
    · exact absurd (hq.from_leaf hi).2.symm hne'
  · obtain ⟨j, w', hj, ⟨rfl, rfl⟩ | ⟨hne', hq⟩⟩ := hq
    · exact absurd (hp.from_leaf hj).2.symm hne
    · obtain ⟨r, rfl⟩ := hpq
      obtain ⟨k, h1, h2⟩ := hq.split
      obtain rfl := hp.target h1
      obtain ⟨rfl, rfl⟩ := h2.from_leaf hi
      rw [hi] at hj; cases hj; rfl

theorem isCode_length {node : List Node} {n root : Nat} (h : Forest node n [root]) {x : Byte} {p : List Bool}
    (hp : IsCode node root x p) : 1 ≤ p.length ∧ p.length ≤ max 1 (n - 1) := by
  have hr := h.root_eq
  have hne := isCode_ne_nil hp
  refine ⟨by cases p <;> simp_all, ?_⟩
  obtain ⟨i, w, hi, ⟨rfl, rfl⟩ | ⟨hne', hp⟩⟩ := hp
  · simp
  · have := hp.length_le h hne
    omega

end Sys2Proof.Machine
end

