-- ==== Sys2Proof/Laws/Invariant.lean ====
section
/-! SUPPORT. How the parts of the invariant carry over a step, and all that FINISH and DEC do in states that satisfy it. -/

namespace Sys2Proof.Machine

/-- An arena with no parentless node is empty. -/
theorem Forest.nothing_held {node : List Node} {n : Nat} (h : Forest node n []) : n = 0 := by
  by_contra hn
  have hsz := h.size
  simp only [List.length_nil] at hsz
  have hm : node.length - 1 ∈ childLinks node ++ [] := h.owned.mem_iff.2 (List.mem_range.2 (by omega))
  rw [List.append_nil, Forest.mem_childLinks] at hm
  obtain ⟨i, w, c0, c1, b, hi, hc⟩ := hm
  have := Path.child_lt h b hi
  have := (List.getElem?_eq_some_iff.1 hi).1
  omega

theorem State.Inv.withHost {s : State} (h : s.Inv) (p : Option Word) (o : List Byte) (ho : List HostReq) (r : List Word) (d : Nat) :
    ({ s with pending := p, out := o, host := ho, replies := r, draws := d } : State).Inv :=
  ⟨h.arena, h.sorted, h.phase, h.cursorPlace, h.donePlace, h.noTable, h.validTable, h.errRecord⟩

theorem State.Inv.withWeight {s : State} (h : s.Inv) (w : ByteTable Word) : ({ s with weight := w } : State).Inv :=
  ⟨h.arena, h.sorted, h.phase, h.cursorPlace, h.donePlace, h.noTable, h.validTable, h.errRecord⟩

theorem State.Inv.record {s : State} (h : s.Inv) (e : HufError) (w : Word) : (s.recordError e w).Inv :=
  ⟨h.arena, h.sorted, h.phase, h.cursorPlace, h.donePlace, h.noTable, h.validTable, by
    constructor
    · show e.code ≤ 8#4
      cases e <;> decide
    · intro he
      have : e.code ≠ 0#4 := by cases e <;> decide
      exact absurd he this⟩

theorem loadQueue_inv {s : State} (h : s.errCode ≤ 8#4 ∧ (s.errCode = 0#4 → s.errOpc = 0#8 ∧ s.errByte = 0#8)) :
    (loadQueue s).Inv := by
  have hb := loadQueue_spec s
  have hf := hb.frame
  have ht : (loadQueue s).tstate = .tBuilding := by rw [hf]
  have hroot : (loadQueue s).root = none := by simp [State.root, ht]
  constructor
  · rw [hroot]; simpa using hb.building.forest
  · exact hb.building.sorted
  · simp [ht]
  · simp [ht]
  · rw [hf]; simp
  · rw [hf]; simp
  · rw [hf]; simp
  · rw [hf]; exact h

theorem Inv_building {s : State} (h : s.Inv) (ht : s.tstate = .tBuilding) : Building s.node s.nleaves s.pq := by
  have := h.arena
  simp [State.root, ht] at this
  exact ⟨this, h.sorted⟩

theorem Inv_of_mergedInto {s t : State} (h : s.Inv) (ht : s.tstate = .tBuilding) (hm : MergedInto s t) : t.Inv := by
  have hf := hm.frame
  have htt : t.tstate = .tBuilding := by rw [hf]; exact ht
  have hn : t.nleaves = s.nleaves := by rw [hf]
  have hd : t.decDone = s.decDone := by rw [hf]
  have hv : t.tableValid = s.tableValid := by rw [hf]
  have hc : t.code = s.code := by rw [hf]
  have h1 : t.errCode = s.errCode := by rw [hf]
  have h2 : t.errOpc = s.errOpc := by rw [hf]
  have h3 : t.errByte = s.errByte := by rw [hf]
  constructor
  · simp only [State.root, htt, Option.toList_none, List.append_nil, hn]; exact hm.building.forest
  · exact hm.building.sorted
  · simp [htt]
  · simp [htt]
  · intro hdt
    rw [hd] at hdt
    simpa [ht] using h.donePlace hdt
  · rw [hv, hc]; exact h.noTable
  · intro hvt
    rw [hv] at hvt
    simpa [ht] using h.validTable hvt
  · rw [h1, h2, h3]; exact h.errRecord

/-- Outside BUILDING the queue is empty. -/
theorem Inv_pq_nil {s : State} (h : s.Inv) (ht : s.tstate ≠ .tBuilding) : s.pq = [] := by
  match hs : s.tstate with
  | .tBuilding => exact absurd hs ht
  | .tReady r c => exact h.phase.2 r c hs
  | .tNone | .tEmpty =>
    have hn := h.phase.1 (by simp [hs])
    match hq : s.pq with
    | [] => rfl
    | i :: q =>
      have := h.arena.held_lt (i := i) (by simp [hq])
      simp [hn] at this

/-- FINISH in full: what it answers in BUILDING. -/
theorem finishTree_spec (w : Word) {s : State} (hb : Building s.node s.nleaves s.pq) (ht : s.tstate = .tBuilding) :
    (s.nleaves = 0 ∧ finishTree w s = .next { s with tstate := .tEmpty }) ∨
    (0 < s.nleaves ∧ weightSum s.node s.pq < 2 ^ 32 ∧ ∃ t, MergedInto s t ∧ t.pq = [2 * s.nleaves - 2] ∧ t.node.length + 1 = 2 * s.nleaves ∧
      finishTree w s = .next { t with pq := [], tstate := .tReady (2 * s.nleaves - 2) (2 * s.nleaves - 2) }) ∨
    (2 ≤ s.nleaves ∧ 2 ^ 32 ≤ weightSum s.node s.pq ∧ ∃ t a b rest, MergedInto s t ∧ t.pq = a :: b :: rest ∧
      2 ^ 32 ≤ (wt t.node a).toNat + (wt t.node b).toNat ∧ finishTree w s = .next (t.recordError .weightOverflow w)) := by
  have hsz := hb.forest.size
  have hlc := hb.forest.leafCount.1
  unfold finishTree
  simp only [ht]
  rcases mergeLoop_spec s.pq.length s hb (by omega) with ⟨t, e, hm, hl⟩ | ⟨t, a, b, rest, e, hm, hq, hle⟩
  · simp only [e]
    have htz := hm.building.forest.size
    match hq : t.pq with
    | [] =>
      left
      have hsq : s.pq = [] := by
        by_contra hne; exact hm.nonempty hne hq
      rw [hq] at htz
      rw [hsq] at hsz
      simp only [List.length_nil] at htz hsz
      have hn : s.nleaves = 0 := (hsq ▸ hb.forest).nothing_held
      have hsn : s.node = [] := by
        apply List.length_eq_zero_iff.1; omega
      have htn : t.node = [] := by
        apply List.length_eq_zero_iff.1; omega
      refine ⟨hn, ?_⟩
      have : t = s := by
        rw [hm.frame, hq, htn]
        nth_rewrite 1 [← hsq]
        rw [← hsn]
      simp [pqExtractMin, hsq, this]
    | r :: q =>
      have hqn : q = [] := by
        rw [hq] at hl; simp at hl; exact hl
      subst hqn
      right; left
      rw [hq] at htz
      have hr := (hq ▸ hm.building.forest).root_eq
      have hrr : r = 2 * s.nleaves - 2 := by omega
      have hsum := hm.sum
      rw [hq] at hsum
      refine ⟨by omega, ?_, t, hm, by rw [hq, hrr], hr.1, ?_⟩
      · rw [← hsum]; simp; exact (wt t.node r).isLt
      · simp [pqExtractMin, hrr]
  · right; right
    have hsum := hm.sum
    have htz := hm.building.forest.size
    rw [hq] at hsum htz
    have hc := hm.building.forest.leafCount.1
    simp only [weightSum_cons, List.length_cons] at hsum htz
    refine ⟨by omega, by omega, t, a, b, rest, hm, hq, hle, ?_⟩
    simp only [e, raise]

theorem finishTree_inv (w : Word) {s : State} (h : s.Inv) : ∃ t, finishTree w s = .next t ∧ t.Inv := by
  by_cases ht : s.tstate = .tBuilding
  · have hd : s.decDone = false := by
      cases hdd : s.decDone with
      | false => rfl
      | true => simpa [ht] using h.donePlace hdd
    have hv : s.tableValid = false := by
      cases hdd : s.tableValid with
      | false => rfl
      | true => simpa [ht] using h.validTable hdd
    have hb := Inv_building h ht
    rcases finishTree_spec w hb ht with ⟨hn, e⟩ | ⟨hn, hs, t, hm, hq, hl, e⟩ | ⟨hn, hs, t, a, b, rest, hm, hq, hle, e⟩
    · refine ⟨_, e, ?_⟩
      have hsz := hb.forest.size
      have hpq : s.pq = [] := List.length_eq_zero_iff.1 (by omega)
      have hnode : s.node = [] := List.length_eq_zero_iff.1 (by omega)
      constructor
      · simpa [State.root] using hb.forest
      · exact h.sorted
      · simp [hnode]
      · simp
      · simp
      · exact h.noTable
      · simp [hv]
      · exact h.errRecord
    · refine ⟨_, e, ?_⟩
      have hi := Inv_of_mergedInto h ht hm
      have hf := hm.frame
      have htd : t.decDone = false := by rw [hf]; exact hd
      have htv : t.tableValid = false := by rw [hf]; exact hv
      have htn : t.nleaves = s.nleaves := by rw [hf]
      constructor
      · simp only [State.root, Option.toList_some, List.nil_append, htn]
        exact hq ▸ hm.building.forest
      · exact List.Pairwise.nil
      · simp
      · intro r c hrc; simp at hrc; exact .inl (hrc.2.symm.trans hrc.1)
      · simp [htd]
      · exact hi.noTable
      · simp [htv]
      · exact hi.errRecord
    · exact ⟨_, e, (Inv_of_mergedInto h ht hm).record _ _⟩
  · exact ⟨_, finishTree_other w ht, h.record _ _⟩

theorem ready_arena {s : State} (h : s.Inv) {r c : Nat} (ht : s.tstate = .tReady r c) : Forest s.node s.nleaves [r] := by
  have := h.arena
  rw [h.phase.2 r c ht] at this
  simpa [State.root, ht] using this

theorem cursor_below {s : State} (h : s.Inv) {r c : Nat} (ht : s.tstate = .tReady r c) : c < s.node.length := by
  rcases h.cursorPlace r c ht with rfl | ⟨w, c0, c1, hi⟩
  · exact (ready_arena h ht).held_lt (by simp)
  · exact (List.getElem?_eq_some_iff.1 hi).1

/-- DEC's walk on a well-formed tree. -/
theorem walkBit_spec (b : Bool) {s : State} {r c : Nat} (hf : Forest s.node s.nleaves [r])
    (hc : c = r ∨ ∃ w c0 c1, s.node[c]? = some (.internal w c0 c1)) :
    (∃ x w, s.node[r]? = some (.leaf x w) ∧ walkBit b r c s = .next (s.emit [x])) ∨
    (∃ w c0 c1, s.node[c]? = some (.internal w c0 c1) ∧
      ((∃ x w', s.node[childOf b c0 c1]? = some (.leaf x w') ∧ walkBit b r c s = .next (({ s with tstate := .tReady r r } : State).emit [x])) ∨
       (∃ w' d0 d1, s.node[childOf b c0 c1]? = some (.internal w' d0 d1) ∧ walkBit b r c s = .next { s with tstate := .tReady r (childOf b c0 c1) }))) := by
  have hr := hf.held_lt (i := r) (by simp)
  unfold walkBit
  have hg : s.node[r]? = some s.node[r] := List.getElem?_eq_getElem hr
  match hm : s.node[r], hg with
  | .leaf x w, hg => left; exact ⟨x, w, hg, by simp only [hg]⟩
  | .internal w c0 c1, hg =>
    right
    have hci : ∃ w c0 c1, s.node[c]? = some (.internal w c0 c1) := by
      rcases hc with rfl | hc
      · exact ⟨_, _, _, hg⟩
      · exact hc
    obtain ⟨w', d0, d1, hd⟩ := hci
    refine ⟨w', d0, d1, hd, ?_⟩
    have hlt := Path.child_lt hf b hd
    have hcl := (List.getElem?_eq_some_iff.1 hd).1
    have hch : childOf b d0 d1 < s.node.length := by omega
    have hgc : s.node[childOf b d0 d1]? = some s.node[childOf b d0 d1] := List.getElem?_eq_getElem hch
    match hmc : s.node[childOf b d0 d1], hgc with
    | .leaf x w2, hgc => left; exact ⟨x, w2, hgc, by simp only [hg, hd, hgc]⟩
    | .internal w2 e0 e1, hgc => right; exact ⟨w2, e0, e1, hgc, by simp only [hg, hd, hgc]⟩

theorem State.Inv.moveCursor {s : State} (h : s.Inv) {r c c' : Nat} (hs : s.tstate = .tReady r c)
    (hc : c' = r ∨ ∃ w c0 c1, s.node[c']? = some (.internal w c0 c1)) (d : Bool) (o : List Byte) (hd : d = true → c' = r) :
    ({ s with decDone := d, tstate := .tReady r c', out := o } : State).Inv := by
  refine ⟨?_, h.sorted, ?_, ?_, ?_, h.noTable, ?_, h.errRecord⟩
  · simpa [State.root, hs] using h.arena
  · simpa using h.phase.2 r c hs
  · intro r' c'' hrc; simp at hrc; obtain ⟨rfl, rfl⟩ := hrc; exact hc
  · intro hdd; exact .inr ⟨r, by simp [hd hdd]⟩
  · intro hv
    rcases h.validTable hv with ⟨he, _⟩ | ⟨r', c'', he, hc⟩
    · rw [hs] at he; cases he
    · rw [hs] at he; cases he; exact .inr ⟨r, c', rfl, hc⟩

end Sys2Proof.Machine
end

