-- ==== Sys2Proof/Laws/Build.lean ====
section
/-! SUPPORT. All that BUILD does (41_tree.md R147, R150, R153). -/

namespace Sys2Proof.Machine

/-- Everything BUILD does. -/
theorem execBuild_spec (s : State) :
    (participants s.weight = [] ∧ execBuild s = .next { loadQueue s with tstate := .tEmpty }) ∨
    (0 < (participants s.weight).length ∧ totalWeight s.weight < 2 ^ 32 ∧ ∃ t, MergedInto (loadQueue s) t ∧
      t.pq = [2 * (participants s.weight).length - 2] ∧ t.node.length + 1 = 2 * (participants s.weight).length ∧
      execBuild s = .next { t with pq := [], tstate := .tReady (2 * (participants s.weight).length - 2) (2 * (participants s.weight).length - 2) }) ∨
    (2 ≤ (participants s.weight).length ∧ 2 ^ 32 ≤ totalWeight s.weight ∧ ∃ t, MergedInto (loadQueue s) t ∧ 
      execBuild s = .next (t.recordError .weightOverflow (encode .build))) := by
  have hb := loadQueue_spec s
  have ht : (loadQueue s).tstate = .tBuilding := by rw [hb.frame]
  have hn := hb.nleaves
  have hsum : weightSum (loadQueue s).node (loadQueue s).pq = totalWeight s.weight := hb.sum
  rcases finishTree_spec (encode .build) hb.building ht with ⟨h1, e⟩ | ⟨h1, h2, t, h3, h4, h5, e⟩ | ⟨h1, h2, t, a, b, rest, h3, h4, h5, e⟩
  · rw [hn] at h1
    exact .inl ⟨List.length_eq_zero_iff.1 h1, e⟩
  · rw [hn] at h1 h4 h5 e
    exact .inr (.inl ⟨h1, hsum ▸ h2, t, h3, h4, h5, e⟩)
  · rw [hn] at h1
    exact .inr (.inr ⟨h1, hsum ▸ h2, t, h3, e⟩)

end Sys2Proof.Machine
end

