-- ==== Sys2Proof/Laws/Frames.lean ====
section
/-! SUPPORT. What the merge loop, FINISH and BINIT leave unchanged, in every state, and that no command looks at the host. -/

namespace Sys2Proof.Machine

theorem mergeLoop_frame (fuel : Nat) (s : State) :
    (∃ t, mergeLoop fuel s = .ok t ∧ t = { s with node := t.node, pq := t.pq }) ∨
    (∃ t, mergeLoop fuel s = .error (.weightOverflow, t) ∧ t = { s with node := t.node, pq := t.pq }) := by
  induction fuel generalizing s with
  | zero => exact .inl ⟨s, rfl, rfl⟩
  | succ fuel ih =>
    unfold mergeLoop
    split
    · rename_i hl
      cases hm : mergeOne s with
      | error e =>
        rcases mergeOne_error hm with ⟨_, h⟩ | ⟨rfl, _⟩
        · omega
        · exact .inr ⟨s, rfl, rfl⟩
      | ok t =>
        obtain ⟨a, b, rest, hq, hlt, rfl⟩ := mergeOne_ok hm
        simp only
        rcases ih (mergedState s a b rest) with ⟨u, e, hu⟩ | ⟨u, e, hu⟩
        · exact .inl ⟨u, e, by rw [hu]; rfl⟩
        · exact .inr ⟨u, e, by rw [hu]; rfl⟩
    · exact .inl ⟨s, rfl, rfl⟩

theorem finishTree_frame (w : Word) (s : State) :
    finishTree w s = .next (s.recordError .sequenceError w) ∧ s.tstate ≠ .tBuilding ∨
    (s.tstate = .tBuilding ∧ ∃ t : State, t = { s with node := t.node, pq := t.pq } ∧
      (finishTree w s = .next (t.recordError .weightOverflow w) ∨
       finishTree w s = .next { t with tstate := .tEmpty } ∨ ∃ r q, t.pq = r :: q ∧ finishTree w s = .next { t with pq := q, tstate := .tReady r r })) := by
  by_cases hs : s.tstate = .tBuilding
  · right
    refine ⟨hs, ?_⟩
    unfold finishTree
    split
    rotate_left
    all_goals try (rename_i h' ; rw [hs] at h'; cases h')
    rcases mergeLoop_frame s.pq.length s with ⟨t, e, hu⟩ | ⟨t, e, hu⟩
    · refine ⟨t, hu, .inr ?_⟩
      simp only [e]
      match ht : t.pq with
      | [] => exact .inl rfl
      | r :: q => exact .inr ⟨r, q, rfl, rfl⟩
    · exact ⟨t, hu, .inl (by simp only [e, raise])⟩
  · exact .inl ⟨finishTree_other w hs, hs⟩

/-- What BINIT leaves unchanged, in every state (R144). -/
theorem loadQueue_frame (s : State) : loadQueue s = { s with
    node := (loadQueue s).node, pq := (loadQueue s).pq, nleaves := (loadQueue s).nleaves,
    tstate := .tBuilding, decDone := false, code := emptyTable, tableValid := false } := (loadQueue_spec s).frame

/-- The outcome with the host's remaining acts replaced. -/
def onHost (h : List HostReq) : Outcome → Outcome
  | .next t => .next { t with host := h }
  | .fault f => .fault f
  | .refused r => .refused r

theorem mergeOne_host (s : State) (h : List HostReq) : mergeOne { s with host := h } = (mergeOne s).map fun t => { t with host := h } := by
  obtain ⟨weight, node, nleaves, pq, tstate, code, tv, dd, ec, eo, eb, pe, out, host, re, dr⟩ := s
  match pq with
  | [] => rw [mergeOne_short (by simp), mergeOne_short (by simp)]; rfl
  | [a] => rw [mergeOne_short (by simp), mergeOne_short (by simp)]; rfl
  | a :: b :: r =>
    rw [mergeOne_cons rfl, mergeOne_cons rfl]
    simp only; split <;> rfl

theorem mergeLoop_host (fuel : Nat) (s : State) (h : List HostReq) : mergeLoop fuel { s with host := h } =
    match mergeLoop fuel s with
    | .ok t => .ok { t with host := h }
    | .error (e, t) => .error (e, { t with host := h }) := by
  induction fuel generalizing s with
  | zero => rfl
  | succ fuel ih =>
    unfold mergeLoop
    rw [mergeOne_host]
    by_cases hl : 1 < s.pq.length
    · rw [if_pos hl, if_pos hl]
      cases hm : mergeOne s with
      | ok t => exact ih t
      | error e => rfl
    · rw [if_neg hl, if_neg hl]

theorem finishTree_host (w : Word) (s : State) (h : List HostReq) : finishTree w { s with host := h } = onHost h (finishTree w s) := by
  obtain ⟨weight, node, nleaves, pq, tstate, code, tv, dd, ec, eo, eb, pe, out, host, re, dr⟩ := s
  unfold finishTree
  rw [mergeLoop_host]
  simp only
  rcases tstate with _ | _ | ⟨r, c⟩ | _
  · rfl
  · simp only
    cases hm : mergeLoop pq.length ⟨weight, node, nleaves, pq, .tBuilding, code, tv, dd, ec, eo, eb, pe, out, host, re, dr⟩ with
    | ok t => simp only; cases hp : pqExtractMin t.pq <;> rfl
    | error e => rfl
  · rfl
  · rfl

theorem loadLeaf_host (s : State) (x : Byte) (h : List HostReq) : loadLeaf { s with host := h } x = { loadLeaf s x with host := h } := by
  by_cases hw : 0#32 < s.weightOf x
  · have hw' : 0#32 < State.weightOf { s with host := h } x := hw
    simp only [loadLeaf, if_pos hw, if_pos hw']; rfl
  · have hw' : ¬ 0#32 < State.weightOf { s with host := h } x := hw
    simp only [loadLeaf, if_neg hw, if_neg hw']

theorem fold_host (l : List Byte) (s : State) (h : List HostReq) : l.foldl loadLeaf { s with host := h } = { l.foldl loadLeaf s with host := h } := by
  induction l generalizing s with
  | nil => rfl
  | cons x l ih => simp only [List.foldl_cons, loadLeaf_host, ih]

theorem loadQueue_host (s : State) (h : List HostReq) : loadQueue { s with host := h } = { loadQueue s with host := h } := by
  have := fold_host symbols { s with node := [], pq := [], nleaves := 0 } h
  unfold loadQueue
  generalize symbols = l at *
  simp only [this]

theorem execBuild_host (s : State) (h : List HostReq) : execBuild { s with host := h } = onHost h (execBuild s) := by
  unfold execBuild
  rw [loadQueue_host, finishTree_host]

theorem exec_host (i : Instr) (s : State) (h : List HostReq) : exec i { s with host := h } = onHost h (exec i s) := by
  cases i with
  | wclr | wsetl | wseth | nop | eclr | srst => rfl
  | binit =>
    show Host.Outcome.next (loadQueue _) = onHost h (.next (loadQueue s))
    rw [loadQueue_host]; rfl
  | merge =>
    show execMerge _ = onHost h (execMerge s)
    unfold execMerge; rw [mergeOne_host]; cases mergeOne s <;> rfl
  | finish => exact finishTree_host _ _ _
  | build =>
    exact execBuild_host s h
  | gentab =>
    show execGentab _ = onHost h (execGentab s)
    obtain ⟨weight, node, nleaves, pq, tstate, code, tv, dd, ec, eo, eb, pe, out, host, re, dr⟩ := s
    unfold execGentab; simp only
    rcases tstate with _ | _ | ⟨r, c⟩ | _
    · rfl
    · rfl
    · simp only; cases treeTable node r <;> rfl
    · rfl
  | enc x =>
    show execEnc x _ = onHost h (execEnc x s)
    unfold execEnc
    by_cases hx : s.codeLen x = 0
    · rw [if_pos hx, if_pos (by exact hx)]; rfl
    · rw [if_neg hx, if_neg (by exact hx)]; rfl
  | dstart =>
    show execDstart _ = onHost h (execDstart s)
    obtain ⟨weight, node, nleaves, pq, tstate, code, tv, dd, ec, eo, eb, pe, out, host, re, dr⟩ := s
    unfold execDstart; simp only
    rcases tstate with _ | _ | ⟨r, c⟩ | _ <;> rfl
  | dec d =>
    show execDec d _ = onHost h (execDec d s)
    obtain ⟨weight, node, nleaves, pq, tstate, code, tv, dd, ec, eo, eb, pe, out, host, re, dr⟩ := s
    unfold execDec; simp only
    rcases tstate with _ | _ | ⟨r, c⟩ | _
    · rfl
    · rfl
    · simp only
      cases bitOfDigit d with
      | none => rfl
      | some b =>
        simp only [walkBit]
        repeat' split
        all_goals rfl
    · rfl
  | dend =>
    show execDend _ = onHost h (execDend s)
    obtain ⟨weight, node, nleaves, pq, tstate, code, tv, dd, ec, eo, eb, pe, out, host, re, dr⟩ := s
    unfold execDend; simp only
    rcases tstate with _ | _ | ⟨r, c⟩ | _
    · rfl
    · rfl
    · simp only; split <;> rfl
    · rfl

theorem perform_host (w : Word) (s : State) (h : List HostReq) : perform w { s with host := h } = onHost h (perform w s) := by
  unfold perform
  have : ({ s with host := h } : State).err = s.err := rfl
  rw [this]
  split
  · rfl
  · cases decode w with
    | error e => rfl
    | ok i => exact exec_host i s h

theorem run_step_next (M : Host.Core) {k : Nat} {s u : M.State} (h : M.step s = .next u) : M.run (k + 1) s = M.run k u := by
  rw [Host.Core.run, h]

end Sys2Proof.Machine
end

