-- ==== Sys2Proof/Laws/Kraft.lean ====
section
/-! SUPPORT. The Kraft sum of the table of a tree (42_codetable.md R182 (d)). -/

namespace Sys2Proof.Machine

/-- The share of a code of this length in the Kraft sum, in units of 2^(-255); no entry, no share. -/
def kraftShare (p : List Bool) : Nat := if p = [] then 0 else 2 ^ (Config.maxCodeLen - p.length)

/-- The Kraft sum of a table, in units of 2^(-255). -/
def kraftSum (t : ByteTable (List Bool)) : Nat := (symbols.map fun x => kraftShare (readTable t x)).sum

theorem kraftSum_writeTable (t : ByteTable (List Bool)) (x : Byte) (p : List Bool) (h : readTable t x = []) :
    kraftSum (writeTable t x p) = kraftSum t + kraftShare p := by
  unfold kraftSum
  have key : ∀ l : List Byte, l.Nodup → (l.map fun y => kraftShare (readTable (writeTable t x p) y)).sum =
      (l.map fun y => kraftShare (readTable t y)).sum + if x ∈ l then kraftShare p else 0 := by
    intro l hl
    induction l with
    | nil => simp
    | cons y l ih =>
      rw [List.nodup_cons] at hl
      simp only [List.map_cons, List.sum_cons, ih hl.2]
      by_cases hy : y = x
      · subst hy
        simp [hl.1, h, kraftShare]; omega
      · have : x ≠ y := fun e => hy e.symm
        simp [readTable_writeTable, hy, this]; omega
  rw [key _ symbols_nodup, if_pos (mem_symbols x)]

theorem kraftSum_emptyTable : kraftSum emptyTable = 0 := by
  unfold kraftSum
  rw [List.sum_eq_zero]
  intro n hn
  obtain ⟨x, _, rfl⟩ := List.mem_map.1 hn
  simp [emptyTable, kraftShare]

theorem visit_kraft {node : List Node} {n : Nat} {held : List Nat} (h : Forest node n held) (fuel x : Nat) (p : List Bool)
    (t t' : ByteTable (List Bool)) (hx : x < node.length) (hp : p ≠ []) (he : visit node fuel x p t = .ok t')
    (hf : x < fuel)
    (hl : p.length + (x + 1 - n) ≤ Config.maxCodeLen)
    (hfree : ∀ q i y w, Path node x q i → node[i]? = some (.leaf y w) → readTable t y = []) :
    kraftSum t' = kraftSum t + 2 ^ (Config.maxCodeLen - p.length) := by
  induction fuel generalizing x p t t' with
  | zero => omega
  | succ fuel ih =>
    unfold visit at he
    have hg : node[x]? = some node[x] := List.getElem?_eq_getElem hx
    match hm : node[x], hg with
    | .leaf s w, hg =>
      rw [hg] at he
      cases he
      rw [kraftSum_writeTable _ _ _ (hfree [] x s w (.here x) hg)]
      simp [kraftShare, hp]
    | .internal w c0 c1, hg =>
      rw [hg] at he
      have h0 := Path.child_lt h false hg
      have h1 := Path.child_lt h true hg
      simp only [childOf, Bool.false_eq_true, if_false, if_true] at h0 h1
      have hxn : ¬ x < n := by
        have := h.leavesFirst x _ hg
        simp [Node.isLeaf] at this; omega
      obtain ⟨t1, e1, a1, b1⟩ := visit_spec h fuel c0 (p ++ [false]) t (by omega) (by omega)
      simp only [e1] at he
      have k1 := ih c0 (p ++ [false]) t t1 (by omega) (by simp) e1 (by omega) (by simp; omega) (by
        intro q i y w' hq hi
        exact hfree (false :: q) i y w' (.step hg (by simpa [childOf] using hq)) hi)
      have k2 := ih c1 (p ++ [true]) t1 t' (by omega) (by simp) he (by omega) (by simp; omega) (by
        intro q i y w' hq hi
        rw [b1 y]
        · exact hfree (true :: q) i y w' (.step hg (by simpa [childOf] using hq)) hi
        · intro q' i' w'' hp' hi'
          obtain rfl := h.leaf_unique hi hi'
          have := h.path_unique (.step (b := true) hg (by simpa [childOf] using hq)) (.step (b := false) hg (by simpa [childOf] using hp'))
          simp at this)
      rw [k2, k1]
      simp only [List.length_append, List.length_singleton]
      have : Config.maxCodeLen - p.length = (Config.maxCodeLen - (p.length + 1)) + 1 := by omega
      rw [this, pow_succ]; omega

theorem treeTable_kraft {node : List Node} {n root : Nat} (h : Forest node n [root]) {t : ByteTable (List Bool)}
    (ht : treeTable node root = .ok t) : kraftSum t = if n = 1 then 2 ^ 254 else 2 ^ 255 := by
  have hr := h.held_lt (i := root) (by simp)
  have hre := h.root_eq
  have hmax := h.leafCount.2
  unfold treeTable at ht
  have hg : node[root]? = some node[root] := List.getElem?_eq_getElem hr
  match hm : node[root], hg with
  | .leaf s w, hg =>
    rw [hg] at ht; cases ht
    have := (h.leavesFirst root _ hg).1 rfl
    have hn : n = 1 := by omega
    rw [kraftSum_writeTable _ _ _ (by simp [emptyTable]), kraftSum_emptyTable, if_pos hn]
    simp [kraftShare, Config.maxCodeLen]
  | .internal w c0 c1, hg =>
    rw [hg] at ht
    simp only at ht
    have hrn : ¬ root < n := by
      have := h.leavesFirst root _ hg
      simp [Node.isLeaf] at this; omega
    have hn : n ≠ 1 := by omega
    have h0 := Path.child_lt h false hg
    have h1 := Path.child_lt h true hg
    simp only [childOf, Bool.false_eq_true, if_false, if_true] at h0 h1
    rw [if_neg hn]
    have hfuel : node.length = (node.length - 1) + 1 := by omega
    rw [hfuel] at ht
    unfold visit at ht
    rw [hg] at ht
    simp only [List.nil_append] at ht
    obtain ⟨t1, e1, a1, b1⟩ := visit_spec h (node.length - 1) c0 [false] emptyTable (by omega) (by omega)
    rw [e1] at ht
    simp only at ht
    simp only [Config.maxLeaves] at hmax
    have k1 := visit_kraft h _ c0 [false] emptyTable t1 (by omega) (by simp) e1 (by omega) (by simp [Config.maxCodeLen]; omega) (by simp [emptyTable])
    have k2 := visit_kraft h _ c1 [true] t1 t (by omega) (by simp) ht (by omega) (by simp [Config.maxCodeLen]; omega) (by
        intro q i y w' hq hi
        rw [b1 y]
        · simp [emptyTable]
        · intro q' i' w'' hp' hi'
          obtain rfl := h.leaf_unique hi hi'
          have := h.path_unique (.step (b := true) hg (by simpa [childOf] using hq)) (.step (b := false) hg (by simpa [childOf] using hp'))
          simp at this)
    rw [k2, k1, kraftSum_emptyTable]
    simp [Config.maxCodeLen]

end Sys2Proof.Machine
end

