-- ==== Sys2Proof/Laws/Optimal.lean ====
section
/-! SUPPORT. The greedy merge is optimal among lengths that satisfy the Kraft inequality (41_tree.md R151). -/

open Finset

namespace Sys2Proof.Machine

/-- The Kraft inequality for code lengths `L` over a set. -/
def KraftLe (P : Finset Nat) (L : Nat → Nat) : Prop := ∑ i ∈ P, (1 / 2 : ℚ) ^ L i ≤ 1

/-- The total weighted length. -/
def lengthCost (w : Nat → Nat) (P : Finset Nat) (L : Nat → Nat) : Nat := ∑ i ∈ P, w i * L i

theorem kraft_scaled {P : Finset Nat} {L : Nat → Nat} {M : Nat} (hM : ∀ i ∈ P, L i ≤ M) :
    KraftLe P L ↔ ∑ i ∈ P, 2 ^ (M - L i) ≤ 2 ^ M := by
  have h2 : (0 : ℚ) < 2 ^ M := by positivity
  have key : (∑ i ∈ P, (1 / 2 : ℚ) ^ L i) * 2 ^ M = ((∑ i ∈ P, 2 ^ (M - L i) : Nat) : ℚ) := by
    push_cast
    rw [Finset.sum_mul]
    refine Finset.sum_congr rfl fun i hi => ?_
    have : (2 : ℚ) ^ M = 2 ^ (M - L i) * 2 ^ L i := by rw [← pow_add]; congr 1; have := hM i hi; omega
    rw [this, one_div, inv_pow]
    have h : (2 : ℚ) ^ L i ≠ 0 := by positivity
    field_simp
  unfold KraftLe
  rw [← mul_le_mul_iff_left₀ h2, key, one_mul]
  exact_mod_cast Iff.rfl

theorem kraft_perm {P : Finset Nat} {L : Nat → Nat} (h : KraftLe P L) {a i : Nat} (ha : a ∈ P) (hi : i ∈ P) :
    KraftLe P (L ∘ Equiv.swap a i) := by
  unfold KraftLe at *
  have := Finset.sum_equiv (s := P) (t := P) (Equiv.swap a i) (f := fun k => (1 / 2 : ℚ) ^ (L ∘ Equiv.swap a i) k) (g := fun k => (1 / 2 : ℚ) ^ L k)
    (by
      intro k
      rcases eq_or_ne k a with rfl | h1
      · simp [ha, hi]
      · rcases eq_or_ne k i with rfl | h2
        · simp [ha, hi]
        · rw [Equiv.swap_apply_of_ne_of_ne h1 h2]) (by intro k _; rfl)
  rw [this]; exact h

theorem cost_swap {w : Nat → Nat} {P : Finset Nat} {L : Nat → Nat} {a i : Nat} (ha : a ∈ P) (hi : i ∈ P)
    (hw : w a ≤ w i) (hL : L a ≤ L i) : lengthCost w P (L ∘ Equiv.swap a i) ≤ lengthCost w P L := by
  rcases eq_or_ne a i with rfl | hne
  · rw [Equiv.swap_self]; exact Nat.le_refl _
  unfold lengthCost
  have hi' : i ∈ P.erase a := by simp [hi, hne.symm]
  rw [← Finset.add_sum_erase P _ ha, ← Finset.add_sum_erase P (fun k => w k * L k) ha,
    ← Finset.add_sum_erase _ _ hi', ← Finset.add_sum_erase (P.erase a) (fun k => w k * L k) hi']
  have hrest : ∑ x ∈ (P.erase a).erase i, w x * (L ∘ Equiv.swap a i) x = ∑ x ∈ (P.erase a).erase i, w x * L x := by
    refine Finset.sum_congr rfl fun x hx => ?_
    simp only [Finset.mem_erase] at hx
    rw [Function.comp_apply, Equiv.swap_apply_of_ne_of_ne hx.2.1 hx.1]
  rw [hrest]
  simp only [Function.comp_apply, Equiv.swap_apply_left, Equiv.swap_apply_right]
  nlinarith

/-- Lengths that satisfy Kraft can be made, at no more cost, such that two elements share the greatest length, which is positive. -/
theorem two_longest {w : Nat → Nat} {P : Finset Nat} (L : Nat → Nat) (hP : 2 ≤ #P) (hk : KraftLe P L) :
    ∃ L', KraftLe P L' ∧ lengthCost w P L' ≤ lengthCost w P L ∧
      ∃ i ∈ P, ∃ j ∈ P, i ≠ j ∧ L' i = L' j ∧ (∀ k ∈ P, L' k ≤ L' i) ∧ 0 < L' i := by
  induction hn : ∑ i ∈ P, L i using Nat.strongRecOn generalizing L with
  | ind n ih =>
    have hne : P.Nonempty := Finset.card_pos.1 (by omega)
    obtain ⟨i, hi, hmax⟩ := Finset.exists_max_image P L hne
    have hsc := (kraft_scaled hmax).1 hk
    have hpos : 0 < L i := by
      by_contra h0
      have : ∀ k ∈ P, 2 ^ (L i - L k) = 1 := by intro k _; rw [show L i - L k = 0 by omega, pow_zero]
      rw [Finset.sum_congr rfl this] at hsc
      simp only [Finset.sum_const, smul_eq_mul, mul_one] at hsc
      rw [show L i = 0 by omega] at hsc
      omega
    by_cases h2 : ∃ j ∈ P, i ≠ j ∧ L i = L j
    · obtain ⟨j, hj, hij, he⟩ := h2
      exact ⟨L, hk, Nat.le_refl _, i, hi, j, hj, hij, he, hmax, hpos⟩
    · push Not at h2
      have hlt : ∀ k ∈ P.erase i, L k < L i := by
        intro k hk
        rw [Finset.mem_erase] at hk
        have h1 := hmax k hk.2
        have h3 := h2 k hk.2 (fun e => hk.1 e.symm)
        omega
      let L' := Function.update L i (L i - 1)
      have hother : ∀ k ∈ P.erase i, L' k = L k := by
        intro k hk
        rw [Finset.mem_erase] at hk
        exact Function.update_of_ne hk.1 _ _
      have hself : L' i = L i - 1 := Function.update_self _ _ _
      have hk' : KraftLe P L' := by
        rw [kraft_scaled (M := L i)]
        · rw [← Finset.add_sum_erase P _ hi, hself] 
          rw [← Finset.add_sum_erase P _ hi] at hsc
          have heven : 2 ∣ ∑ x ∈ P.erase i, 2 ^ (L i - L x) := by
            refine Finset.dvd_sum fun x hx => ?_
            have := hlt x hx
            exact dvd_pow_self 2 (by omega)
          have heven2 : 2 ∣ 2 ^ L i := dvd_pow_self 2 (by omega)
          rw [Finset.sum_congr rfl fun x hx => by rw [hother x hx]]
          rw [show L i - (L i - 1) = 1 by omega]
          rw [Nat.sub_self, pow_zero] at hsc
          omega
        · intro k hkP
          by_cases hki : k = i
          · subst hki; rw [hself]; omega
          · rw [hother k (by simp [hki, hkP])]; exact hmax k hkP
      have hle : ∀ k, L' k ≤ L k := by
        intro k
        by_cases hki : k = i
        · subst hki; rw [hself]; omega
        · exact Nat.le_of_eq (Function.update_of_ne hki _ _)
      have hs : ∑ k ∈ P, L' k < ∑ k ∈ P, L k := Finset.sum_lt_sum (fun k _ => hle k) ⟨i, hi, by rw [hself]; omega⟩
      obtain ⟨L'', h1, h2, h3⟩ := ih _ (hn ▸ hs) L' hk' rfl
      refine ⟨L'', h1, h2.trans ?_, h3⟩
      exact Finset.sum_le_sum fun k _ => Nat.mul_le_mul_left _ (hle k)

/-- The greedy choice: the two lightest may be given the same, positive, length. -/
theorem greedy_choice {w : Nat → Nat} {P : Finset Nat} {a b : Nat} (ha : a ∈ P) (hb : b ∈ P) (hab : a ≠ b)
    (hwab : w a ≤ w b) (hw : ∀ k ∈ P, k ≠ a → w b ≤ w k) (L : Nat → Nat) (hk : KraftLe P L) :
    ∃ L', KraftLe P L' ∧ lengthCost w P L' ≤ lengthCost w P L ∧ L' a = L' b ∧ 0 < L' a := by
  have hcard : 2 ≤ #P := by
    rw [← Finset.card_pair hab]
    exact Finset.card_le_card (by intro x hx; simp at hx; rcases hx with rfl | rfl <;> assumption)
  obtain ⟨L1, hk1, hc1, i, hi, j, hj, hij, he, hmax, hpos⟩ := two_longest (w := w) L hcard hk
  have hwa : ∀ k ∈ P, w a ≤ w k := by
    intro k hkP
    by_cases hka : k = a
    · subst hka; exact Nat.le_refl _
    · exact hwab.trans (hw k hkP hka)
  -- give `a` the greatest length
  have hk2 := kraft_perm hk1 ha hi
  have hc2 := cost_swap (w := w) ha hi (hwa i hi) (hmax a ha)
  set L2 := L1 ∘ Equiv.swap a i with hL2
  have h2a : L2 a = L1 i := by simp [hL2]
  have h2max : ∀ k ∈ P, L2 k ≤ L1 i := by
    intro k hkP
    rcases eq_or_ne k a with rfl | h1
    · exact Nat.le_of_eq h2a
    · rcases eq_or_ne k i with rfl | h2
      · simpa [hL2] using hmax a ha
      · simpa [hL2, Equiv.swap_apply_of_ne_of_ne h1 h2] using hmax k hkP
  obtain ⟨j2, hj2, hj2a, hj2M⟩ : ∃ j2 ∈ P, j2 ≠ a ∧ L2 j2 = L1 i := by
    rcases eq_or_ne j a with rfl | hja
    · exact ⟨i, hi, hij, by simp [hL2, he]⟩
    · exact ⟨j, hj, hja, by simp [hL2, Equiv.swap_apply_of_ne_of_ne hja hij.symm, he]⟩
  have hk3 := kraft_perm hk2 hb hj2
  have hc3 := cost_swap (w := w) hb hj2 (hw j2 hj2 hj2a) (hj2M ▸ h2max b hb)
  refine ⟨_, hk3, hc3.trans (hc2.trans hc1), ?_, ?_⟩
  · simp only [Function.comp_apply, Equiv.swap_apply_left]
    rw [Equiv.swap_apply_of_ne_of_ne hab hj2a.symm, h2a, hj2M]
  · simp only [Function.comp_apply]
    rw [Equiv.swap_apply_of_ne_of_ne hab hj2a.symm, h2a]; exact hpos

/-- Depths in a tree: the root has depth 0 and a child is one deeper than its parent. -/
structure Depths (node : List Node) (root : Nat) (D : Nat → Nat) : Prop where
  root : D root = 0
  child : ∀ (i : Nat) w c0 c1, node[i]? = some (.internal w c0 c1) → D c0 = D i + 1 ∧ D c1 = D i + 1

def nodeCost (node : List Node) (pq : List Nat) (L : Nat → Nat) : Nat := (pq.map fun i => (wt node i).toNat * L i).sum

theorem nodeCost_eq {node : List Node} {pq : List Nat} (h : pq.Nodup) (L : Nat → Nat) :
    nodeCost node pq L = lengthCost (fun i => (wt node i).toNat) pq.toFinset L := by
  unfold nodeCost lengthCost
  rw [List.sum_toFinset _ h]

theorem mergeLoop_optimal (fuel : Nat) {s t : State} {root : Nat} {D : Nat → Nat} (hb : Building s.node s.nleaves s.pq)
    (hf : s.pq.length ≤ fuel + 1) (he : mergeLoop fuel s = .ok t) (hq : t.pq = [root]) (hg : s.node <+: t.node) (hD : Depths t.node root D) (L : Nat → Nat) (hk : KraftLe s.pq.toFinset L) :
    nodeCost s.node s.pq D ≤ nodeCost s.node s.pq L := by
  induction fuel generalizing s L with
  | zero =>
    cases he
    rw [hq]; simp [nodeCost, hD.root]
  | succ fuel ih =>
    unfold mergeLoop at he
    by_cases hl : 1 < s.pq.length
    · rw [if_pos hl] at he
      cases hm : mergeOne s with
      | error e => rw [hm] at he; cases he
      | ok u =>
        rw [hm] at he
        simp only at he
        obtain ⟨a, b, rest, hpq, hlt, rfl⟩ := mergeOne_ok hm
        have hbu := hb.merged hpq hlt
        have hnd := hb.forest.held_nodup
        rw [hpq] at hnd
        have hab : a ≠ b := by intro e; subst e; simp at hnd
        have hsort := hb.sorted
        rw [hpq, List.pairwise_cons, List.pairwise_cons] at hsort
        have hrest : ∀ i ∈ rest, i < s.node.length := fun i hi => hb.forest.held_lt (by rw [hpq]; simp [hi])
        have hal : a < s.node.length := hb.forest.held_lt (by rw [hpq]; simp)
        have hbl : b < s.node.length := hb.forest.held_lt (by rw [hpq]; simp)
        obtain ⟨L1, hk1, hc1, heq, hpos⟩ := greedy_choice (w := fun i => (wt s.node i).toNat) (P := s.pq.toFinset) (a := a) (b := b)
          (by rw [hpq]; simp) (by rw [hpq]; simp) hab (BitVec.le_def.1 (hsort.1 b (by simp)).wt_le)
          (by
            intro k hk hka
            rw [hpq] at hk
            simp only [List.toFinset_cons, Finset.mem_insert, List.mem_toFinset] at hk
            rcases hk with rfl | rfl | hk
            · exact absurd rfl hka
            · exact Nat.le_refl _
            · exact BitVec.le_def.1 (hsort.2.1 k hk).wt_le) L hk
        have hnd' : s.pq.Nodup := hpq ▸ hnd
        rw [← nodeCost_eq hnd', ← nodeCost_eq hnd'] at hc1
        -- the merged node's length
        let c := s.node.length
        let L2 := Function.update L1 c (L1 a - 1)
        have hL2c : L2 c = L1 a - 1 := Function.update_self _ _ _
        have hL2r : ∀ i ∈ rest, L2 i = L1 i := fun i hi => Function.update_of_ne (by have := hrest i hi; simp only [c]; omega) _ _
        have hcr : c ∉ rest := fun h => by have := hrest _ h; simp only [c] at this; omega
        have hset : (mergedState s a b rest).pq.toFinset = insert c rest.toFinset := by
          ext x; simp [mergedState, c]
        have hk2 : KraftLe (mergedState s a b rest).pq.toFinset L2 := by
          unfold KraftLe at hk1 ⊢
          rw [hset, Finset.sum_insert (by simpa using hcr), hL2c]
          rw [Finset.sum_congr rfl fun x hx => by rw [hL2r x (by simpa using hx)]]
          rw [hpq] at hk1
          have ha' : a ∉ insert b rest.toFinset := by simp at hnd ⊢; tauto
          have hb' : b ∉ rest.toFinset := by simp at hnd ⊢; tauto
          simp only [List.toFinset_cons] at hk1
          rw [Finset.sum_insert ha', Finset.sum_insert hb', ← heq] at hk1
          have : (1 / 2 : ℚ) ^ (L1 a - 1) = (1 / 2) ^ L1 a + (1 / 2) ^ L1 a := by
            obtain ⟨m, hm⟩ : ∃ m, L1 a = m + 1 := ⟨L1 a - 1, by omega⟩
            rw [hm, Nat.add_sub_cancel, pow_succ]; ring
          rw [this]; linarith
        have hlen : (mergedState s a b rest).pq.length + 1 = s.pq.length := by simp [mergedState, hpq]
        have hgu : (mergedState s a b rest).node <+: t.node := by
          rcases mergeLoop_spec fuel _ hbu.1 (by omega) with ⟨t', e', hm', _⟩ | ⟨t', _, _, _, e', _⟩
          · rw [he] at e'; cases e'; exact hm'.grows
          · rw [he] at e'; cases e'
        have hih := ih hbu.1 (by omega) he hgu L2 hk2
        have hcost : ∀ F : Nat → Nat, F a = F c + 1 → F b = F c + 1 →
            nodeCost s.node s.pq F = nodeCost (mergedState s a b rest).node (mergedState s a b rest).pq F + ((wt s.node a).toNat + (wt s.node b).toNat) := by
          intro F h1 h2
          have hperm : (mergedState s a b rest).pq.Perm (c :: rest) := pqInsert_perm _ _ _
          unfold nodeCost
          rw [(hperm.map _).sum_eq, hpq]
          simp only [List.map_cons, List.sum_cons]
          have hwc : (wt (mergedState s a b rest).node c).toNat = (wt s.node a).toNat + (wt s.node b).toNat := by
            simp only [mergedState, c, wt_append_length, Node.weight]
            rw [BitVec.toNat_add, Nat.mod_eq_of_lt hlt]
          have hwr : (rest.map fun i => (wt (mergedState s a b rest).node i).toNat * F i) = rest.map fun i => (wt s.node i).toNat * F i := by
            apply List.map_congr_left
            intro i hi
            simp only [mergedState]; rw [wt_append_left (hrest i hi)]
          rw [hwc, hwr, h1, h2]; ring
        have hDc : D a = D c + 1 ∧ D b = D c + 1 := by
          obtain ⟨more, hmore⟩ := hgu
          refine hD.child c (wt s.node a + wt s.node b) a b ?_
          rw [← hmore, List.getElem?_append_left (by simp [mergedState, c])]
          simp [mergedState, c]
        rw [hcost D hDc.1 hDc.2]
        have hswap : nodeCost (mergedState s a b rest).node (mergedState s a b rest).pq L2 + ((wt s.node a).toNat + (wt s.node b).toNat) ≤ nodeCost s.node s.pq L1 := by
          let L3 := Function.update L1 c (L1 a - 1)
          have h3a : L3 a = L1 a := Function.update_of_ne (by simp only [c]; omega) _ _
          have h3b : L3 b = L1 b := Function.update_of_ne (by simp only [c]; omega) _ _
          have := hcost L3 (by rw [h3a]; show L1 a = L2 c + 1; rw [hL2c]; omega) (by rw [h3b, ← heq]; show L1 a = L2 c + 1; rw [hL2c]; omega)
          rw [← this]
          apply Nat.le_of_eq
          unfold nodeCost
          congr 1
          apply List.map_congr_left
          intro i hi
          have : i < s.node.length := hb.forest.held_lt hi
          rw [show L3 i = L1 i from Function.update_of_ne (by simp only [c]; omega) _ _]
        omega
    · rw [if_neg hl] at he
      cases he
      rw [hq]; simp [nodeCost, hD.root]

/-- A set of words none of which begins with another, none empty, is uniquely decodable. -/
theorem uniquelyDecodable_of_prefixFree {S : Set (List Bool)} (hne : [] ∉ S)
    (h : ∀ p ∈ S, ∀ q ∈ S, p <+: q → p = q) : InformationTheory.UniquelyDecodable S := by
  intro l m hl hm he
  induction l generalizing m with
  | nil =>
    cases m with
    | nil => rfl
    | cons q m =>
      simp only [List.flatten_nil, List.flatten_cons] at he
      have : q = [] := (List.append_eq_nil_iff.1 he.symm).1
      exact absurd (this ▸ hm q (by simp)) hne
  | cons p l ih =>
    cases m with
    | nil =>
      simp only [List.flatten_nil, List.flatten_cons] at he
      have : p = [] := (List.append_eq_nil_iff.1 he).1
      exact absurd (this ▸ hl p (by simp)) hne
    | cons q m =>
      simp only [List.flatten_cons] at he
      have hp := hl p (by simp)
      have hq := hm q (by simp)
      have hpq : p = q := by
        rcases List.prefix_or_prefix_of_prefix (List.prefix_append p l.flatten) (he ▸ List.prefix_append q m.flatten) with h1 | h1
        · exact h p hp q hq h1
        · exact (h q hq p hp h1).symm
      subst hpq
      rw [List.append_cancel_left_eq] at he
      rw [ih m (fun w hw => hl w (by simp [hw])) (fun w hw => hm w (by simp [hw])) he]

theorem kraftLe_of_prefixFree {P : Finset Nat} {word : Nat → List Bool} (hP : 2 ≤ #P)
    (h : ∀ i ∈ P, ∀ j ∈ P, i ≠ j → ¬ word i <+: word j) : KraftLe P fun i => (word i).length := by
  have hinj : Set.InjOn word P := by
    intro i hi j hj he
    by_contra hne
    exact h i hi j hj hne (he ▸ List.prefix_refl _)
  have hne : [] ∉ (P.image word : Set (List Bool)) := by
    intro hm
    simp only [Finset.coe_image, Set.mem_image] at hm
    obtain ⟨i, hi, he⟩ := hm
    obtain ⟨j, hj, hji⟩ : ∃ j ∈ P, j ≠ i := Finset.exists_mem_ne (by omega) i
    exact h i hi j hj hji.symm (by rw [he]; exact List.nil_prefix)
  have hud : InformationTheory.UniquelyDecodable (P.image word : Set (List Bool)) := by
    apply uniquelyDecodable_of_prefixFree hne
    intro p hp q hq hpq
    simp only [Finset.coe_image, Set.mem_image] at hp hq
    obtain ⟨i, hi, rfl⟩ := hp
    obtain ⟨j, hj, rfl⟩ := hq
    by_contra hne
    exact h i hi j hj (fun e => hne (by rw [e])) hpq
  have := InformationTheory.kraft_mcmillan_inequality hud
  rw [Finset.sum_image hinj] at this
  unfold KraftLe
  have h2 : ((∑ i ∈ P, (1 / 2 : ℚ) ^ (word i).length : ℚ) : ℝ) ≤ 1 := by
    push_cast
    simpa using this
  exact_mod_cast h2

open Classical in
/-- The depth of a node: the length of its path. -/
noncomputable def depthOf (node : List Node) (root i : Nat) : Nat :=
  if h : ∃ p, Path node root p i then h.choose.length else 0

theorem depthOf_eq {node : List Node} {n root i : Nat} (h : Forest node n [root]) {p : List Bool} (hp : Path node root p i) :
    depthOf node root i = p.length := by
  have he : ∃ p, Path node root p i := ⟨p, hp⟩
  unfold depthOf
  rw [dif_pos he, h.path_unique he.choose_spec hp]

theorem depths_depthOf {node : List Node} {n root : Nat} (h : Forest node n [root]) : Depths node root (depthOf node root) where
  root := depthOf_eq h (.here root)
  child := by
    intro i w c0 c1 hi
    obtain ⟨p, hp⟩ := h.reachable (List.getElem?_eq_some_iff.1 hi).1
    rw [depthOf_eq h hp]
    have h0 := depthOf_eq h (hp.trans (.step (b := false) hi (.here _)))
    have h1 := depthOf_eq h (hp.trans (.step (b := true) hi (.here _)))
    simp only [childOf, Bool.false_eq_true, if_false, if_true, List.length_append, List.length_singleton] at h0 h1
    exact ⟨h0, h1⟩

end Sys2Proof.Machine
end

