-- ==== Sys2Proof/Laws/Words.lean ====
section
/-! SUPPORT. Laws of the fields of a command word (30_encoding.md R91 to R97). -/

namespace Sys2Proof

@[simp] theorem opcField_commandWord (opc b : Byte) (imm : Half) : opcField (commandWord opc b imm) = opc := by
  unfold opcField commandWord
  apply BitVec.eq_of_getLsbD_eq; intro i hi
  have := BitVec.getLsbD_append (x := opc ++ b) (y := imm) (i := 24 + i)
  grind

@[simp] theorem byteField_commandWord (opc b : Byte) (imm : Half) : byteField (commandWord opc b imm) = b := by
  unfold byteField commandWord
  apply BitVec.eq_of_getLsbD_eq; intro i hi
  have := BitVec.getLsbD_append (x := opc ++ b) (y := imm) (i := 16 + i)
  grind

@[simp] theorem immField_commandWord (opc b : Byte) (imm : Half) : immField (commandWord opc b imm) = imm := by
  unfold immField commandWord
  apply BitVec.eq_of_getLsbD_eq; intro i hi
  have := BitVec.getLsbD_append (x := opc ++ b) (y := imm) (i := i)
  grind

theorem commandWord_fields (w : Word) : commandWord (opcField w) (byteField w) (immField w) = w := by
  unfold opcField byteField immField commandWord
  apply BitVec.eq_of_getLsbD_eq; intro i hi
  have := BitVec.getLsbD_append (x := w.extractLsb' 24 8 ++ w.extractLsb' 16 8) (y := w.extractLsb' 0 16) (i := i)
  grind

theorem word_ext {w v : Word} (h1 : opcField w = opcField v) (h2 : byteField w = byteField v) (h3 : immField w = immField v) : w = v := by
  rw [← commandWord_fields w, h1, h2, h3, commandWord_fields]

theorem lowBitsN_eq_zero (w : Word) : lowBitsN w = 0#24 ↔ byteField w = 0#8 ∧ immField w = 0#16 := by
  have key : lowBitsN w = byteField w ++ immField w := by
    unfold lowBitsN byteField immField
    apply BitVec.eq_of_getLsbD_eq; intro i hi
    have := BitVec.getLsbD_append (x := w.extractLsb' 16 8) (y := w.extractLsb' 0 16) (i := i)
    grind
  rw [key]
  constructor
  · intro h
    constructor
    · apply BitVec.eq_of_getLsbD_eq; intro i hi
      have e := congrArg (fun v => BitVec.getLsbD v (16 + i)) h
      have := BitVec.getLsbD_append (x := byteField w) (y := immField w) (i := 16 + i)
      grind
    · apply BitVec.eq_of_getLsbD_eq; intro i hi
      have e := congrArg (fun v => BitVec.getLsbD v (i)) h
      have := BitVec.getLsbD_append (x := byteField w) (y := immField w) (i := i)
      grind
  · rintro ⟨h1, h2⟩; rw [h1, h2]; rfl

theorem decode_encode (i : Instr) : decode (encode i) = .ok i := by
  cases i <;> simp [encode, decode, formatN, formatB, formatW, lowBitsN_eq_zero]

theorem formatN_eq_ok {w : Word} {i j : Instr} (h : formatN w i = .ok j) :
    j = i ∧ byteField w = 0#8 ∧ immField w = 0#16 := by
  unfold formatN at h
  split at h
  · rename_i hz; exact ⟨(Except.ok.inj h).symm, (lowBitsN_eq_zero w).1 hz⟩
  · cases h

theorem formatB_eq_ok {w : Word} {f : Byte → Instr} {j : Instr} (h : formatB w f = .ok j) :
    j = f (byteField w) ∧ immField w = 0#16 := by
  unfold formatB at h
  split at h
  · rename_i hz; exact ⟨(Except.ok.inj h).symm, hz⟩
  · cases h

theorem formatW_eq_ok {w : Word} {f : Byte → Half → Instr} {j : Instr} (h : formatW w f = .ok j) :
    j = f (byteField w) (immField w) := (Except.ok.inj h).symm

end Sys2Proof
end

