-- ==== Sys2Proof/Laws/PerInstr.lean ====
section
/-! SUPPORT. One lemma per command about the fields of its word (30_encoding.md R91 to R96). -/

namespace Sys2Proof.Laws.Encoding

/-- The opcode of R96 stands in the OPC field of a command's word, its operands in the BYTE and IMM16 fields, and a field the
command does not use is 0 (R92, R93). -/
def Statement : Instr → Prop
  | .wclr => opcField (encode .wclr) = 0x10#8 ∧ byteField (encode .wclr) = 0#8 ∧ immField (encode .wclr) = 0#16
  | .wsetl x imm => opcField (encode (.wsetl x imm)) = 0x11#8 ∧ byteField (encode (.wsetl x imm)) = x ∧ immField (encode (.wsetl x imm)) = imm
  | .wseth x imm => opcField (encode (.wseth x imm)) = 0x12#8 ∧ byteField (encode (.wseth x imm)) = x ∧ immField (encode (.wseth x imm)) = imm
  | .binit => opcField (encode .binit) = 0x20#8 ∧ byteField (encode .binit) = 0#8 ∧ immField (encode .binit) = 0#16
  | .merge => opcField (encode .merge) = 0x21#8 ∧ byteField (encode .merge) = 0#8 ∧ immField (encode .merge) = 0#16
  | .finish => opcField (encode .finish) = 0x22#8 ∧ byteField (encode .finish) = 0#8 ∧ immField (encode .finish) = 0#16
  | .build => opcField (encode .build) = 0x23#8 ∧ byteField (encode .build) = 0#8 ∧ immField (encode .build) = 0#16
  | .gentab => opcField (encode .gentab) = 0x30#8 ∧ byteField (encode .gentab) = 0#8 ∧ immField (encode .gentab) = 0#16
  | .enc x => opcField (encode (.enc x)) = 0x40#8 ∧ byteField (encode (.enc x)) = x ∧ immField (encode (.enc x)) = 0#16
  | .dstart => opcField (encode .dstart) = 0x50#8 ∧ byteField (encode .dstart) = 0#8 ∧ immField (encode .dstart) = 0#16
  | .dec d => opcField (encode (.dec d)) = 0x51#8 ∧ byteField (encode (.dec d)) = d ∧ immField (encode (.dec d)) = 0#16
  | .dend => opcField (encode .dend) = 0x52#8 ∧ byteField (encode .dend) = 0#8 ∧ immField (encode .dend) = 0#16
  | .nop => opcField (encode .nop) = 0x00#8 ∧ byteField (encode .nop) = 0#8 ∧ immField (encode .nop) = 0#16
  | .srst => opcField (encode .srst) = 0x01#8 ∧ byteField (encode .srst) = 0#8 ∧ immField (encode .srst) = 0#16
  | .eclr => opcField (encode .eclr) = 0x02#8 ∧ byteField (encode .eclr) = 0#8 ∧ immField (encode .eclr) = 0#16

theorem wclr : Statement .wclr := by simp [Statement, encode]

theorem wsetl (x : Byte) (imm : Half) : Statement (.wsetl x imm) := by simp [Statement, encode]

theorem wseth (x : Byte) (imm : Half) : Statement (.wseth x imm) := by simp [Statement, encode]

theorem binit : Statement .binit := by simp [Statement, encode]

theorem merge : Statement .merge := by simp [Statement, encode]

theorem finish : Statement .finish := by simp [Statement, encode]

theorem build : Statement .build := by simp [Statement, encode]

theorem gentab : Statement .gentab := by simp [Statement, encode]

theorem enc (x : Byte) : Statement (.enc x) := by simp [Statement, encode]

theorem dstart : Statement .dstart := by simp [Statement, encode]

theorem dec (d : Byte) : Statement (.dec d) := by simp [Statement, encode]

theorem dend : Statement .dend := by simp [Statement, encode]

theorem nop : Statement .nop := by simp [Statement, encode]

theorem srst : Statement .srst := by simp [Statement, encode]

theorem eclr : Statement .eclr := by simp [Statement, encode]

end Sys2Proof.Laws.Encoding
end

