-- ==== Sys2Proof/Laws/Registers.lean ====
section
/-! SUPPORT. Laws of register fields (10_state.md section 4). -/

namespace Sys2Proof.Machine

theorem getLsbD_field {n : Nat} (lo : Nat) (v : BitVec n) (i : Nat) :
    (field lo v).getLsbD i = (decide (i < 32) && decide (lo ≤ i) && v.getLsbD (i - lo)) := by
  unfold field
  rw [BitVec.getLsbD_shiftLeft, BitVec.getLsbD_setWidth]
  by_cases h : i < 32 <;> by_cases h2 : i < lo
  · have : ¬ lo ≤ i := by omega
    simp [h, h2, this]
  · have : lo ≤ i := by omega
    have h3 : i - lo < 32 := by omega
    simp [h, h2, this, h3]
  · simp [h]
  · simp [h]

theorem extract_field_same {n : Nat} (lo : Nat) (v : BitVec n) (h : lo + n ≤ 32) : (field lo v).extractLsb' lo n = v := by
  apply BitVec.eq_of_getLsbD_eq; intro i hi
  rw [BitVec.getLsbD_extractLsb', getLsbD_field]
  have h1 : lo + i < 32 := by omega
  simp [hi, h1]

theorem extract_field_other {n : Nat} (lo : Nat) (v : BitVec n) (k m : Nat) (h : lo + n ≤ k ∨ k + m ≤ lo) :
    (field lo v).extractLsb' k m = 0#m := by
  apply BitVec.eq_of_getLsbD_eq; intro i hi
  rw [BitVec.getLsbD_extractLsb', getLsbD_field]
  rcases h with h | h
  · rw [BitVec.getLsbD_of_ge v _ (by omega)]; simp
  · have h1 : ¬ lo ≤ k + i := by omega
    simp [h1]

theorem getLsbD_field_bit (lo : Nat) (v : Bool) (i : Nat) (hi : i < 32) : (field lo (BitVec.ofBool v)).getLsbD i = (decide (i = lo) && v) := by
  rw [getLsbD_field]
  by_cases h : i = lo
  · subst h; simp [hi]
  · by_cases h2 : lo ≤ i
    · rw [BitVec.getLsbD_of_ge _ _ (by omega)]; simp [h]
    · simp [h, h2]

theorem getLsbD_field_outside {n : Nat} (lo : Nat) (v : BitVec n) (i : Nat) (h : i < lo ∨ lo + n ≤ i) : (field lo v).getLsbD i = false := by
  rw [getLsbD_field]
  rcases h with h | h
  · have : ¬ lo ≤ i := by omega
    simp [this]
  · rw [BitVec.getLsbD_of_ge _ _ (by omega)]; simp

theorem codeBitsWord_getLsbD (s : State) (x : Byte) (j : Nat) {t : Nat} (ht : t < 32) :
    (s.codeBitsWord x j).getLsbD t = (s.codeOf x).getD (32 * j + t) false := by
  unfold State.codeBitsWord
  rw [BitVec.getLsbD_setWidth, BitVec.getLsbD_ofBoolListLE]
  simp [ht, List.getD_eq_getElem?_getD, List.getElem?_drop]

end Sys2Proof.Machine
end

