-- ==== Sys2Proof/Laws/Run.lean ====
section
/-! SUPPORT. Runs of command words (20_memory.md R64): encoding and decoding along a path of the tree. -/

namespace Sys2Proof.Machine

theorem passesGate_encode (i : Instr) (h : i = .nop ∨ i = .srst ∨ i = .eclr) : passesGate (encode i) = true := by
  rcases h with rfl | rfl | rfl <;> decide

/-- Performing the word of a command is that command: always for the three that pass the gate, and for every other with no
error pending (R273, R274). -/
theorem perform_encode_of_gate (i : Instr) {s : State} (h : s.errCode = 0#4 ∨ i = .nop ∨ i = .srst ∨ i = .eclr) :
    perform (encode i) s = exec i s := by
  unfold perform
  rw [if_neg]
  · simp only [decode_encode]
  · rcases h with h | h
    · simp [State.err, h]
    · rw [passesGate_encode i h]; simp

theorem perform_encode (i : Instr) {s : State} (h : s.errCode = 0#4) : perform (encode i) s = exec i s :=
  perform_encode_of_gate i (.inl h)

theorem perform_pending {w : Word} {s : State} (h : s.errCode ≠ 0#4) (hw : passesGate w = false) : perform w s = .next s := by
  unfold perform
  rw [if_pos]
  simp [State.err, h, hw]

theorem runWords_append (a b : List Word) (s : State) :
    runWords (a ++ b) s = match runWords a s with
      | .next t => runWords b t
      | .fault f => .fault f
      | .refused r => .refused r := by
  induction a generalizing s with
  | nil => rfl
  | cons w a ih =>
    simp only [List.cons_append, runWords]
    cases perform w s with
    | next t => exact ih t
    | fault f => rfl
    | refused r => rfl

theorem runWords_cons_next {w : Word} {ws : List Word} {s t : State} (h : perform w s = .next t) :
    runWords (w :: ws) s = runWords ws t := by
  simp only [runWords, h]

/-- The word of DEC for a bit. -/
def decWord (b : Bool) : Word := encode (.dec (digitOfBit b))

@[simp] theorem bitOfDigit_digitOfBit (b : Bool) : bitOfDigit (digitOfBit b) = some b := by
  cases b <;> decide

theorem runWords_path {s : State} {r c i : Nat} {p : List Bool} {x : Byte} {v w0 : Word} {a0 b0 : Nat} (herr : s.errCode = 0#4)
    (hs : s.tstate = .tReady r c) (hroot : s.node[r]? = some (.internal w0 a0 b0))
    (hp : Path s.node c p i) (hi : s.node[i]? = some (.leaf x v)) (hne : p ≠ []) :
    runWords (p.map decWord) s = .next { s with decDone := false, tstate := .tReady r r, out := s.out ++ [x] } := by
  induction p generalizing s c with
  | nil => exact absurd rfl hne
  | cons b p ih =>
    cases hp with
    | @step _ _ w c0 c1 _ _ hn hp =>
      rw [List.map_cons]
      have hstep : perform (decWord b) s = walkBit b r c { s with decDone := false } := by
        rw [decWord, perform_encode _ herr]
        exact execDec_ready hs (by simp)
      by_cases hpe : p = []
      · subst hpe
        have hci : childOf b c0 c1 = i := by cases hp; rfl
        have : perform (decWord b) s = .next { s with decDone := false, tstate := .tReady r r, out := s.out ++ [x] } := by
          rw [hstep]; unfold walkBit
          simp only [hroot, hn, hci, hi, State.emit]
        rw [runWords_cons_next this]; rfl
      · have hint : ∃ w' d0 d1, s.node[childOf b c0 c1]? = some (.internal w' d0 d1) := by
          cases hp with
          | here => exact absurd rfl hpe
          | step hn' _ => exact ⟨_, _, _, hn'⟩
        obtain ⟨w', d0, d1, hd⟩ := hint
        have : perform (decWord b) s = .next { s with decDone := false, tstate := .tReady r (childOf b c0 c1) } := by
          rw [hstep]; unfold walkBit
          simp only [hroot, hn, hd]
        rw [runWords_cons_next this]
        exact ih (s := { s with decDone := false, tstate := .tReady r (childOf b c0 c1) }) herr rfl hroot hp hi hpe

theorem runWords_code {s : State} {r : Nat} {p : List Bool} {x : Byte} (herr : s.errCode = 0#4)
    (hs : s.tstate = .tReady r r) (hc : IsCode s.node r x p) :
    runWords (p.map decWord) s = .next { s with decDone := false, out := s.out ++ [x] } := by
  have hp := isCode_ne_nil hc
  obtain ⟨i, v, hi, ⟨rfl, rfl⟩ | ⟨hne, hpath⟩⟩ := hc
  · have : perform (decWord Config.singleLeafDigit) s = .next { s with decDone := false, out := s.out ++ [x] } := by
      rw [decWord, perform_encode _ herr]
      refine (execDec_ready hs (bitOfDigit_digitOfBit Config.singleLeafDigit)).trans ?_
      unfold walkBit
      simp only [hi, State.emit]
    rw [List.map_cons, runWords_cons_next this]; rfl
  · have hr : ∃ w0 a0 b0, s.node[r]? = some (.internal w0 a0 b0) := by
      cases hpath with
      | here => exact absurd rfl hne
      | step hn _ => exact ⟨_, _, _, hn⟩
    obtain ⟨w0, a0, b0, hr⟩ := hr
    rw [runWords_path herr hs hr hpath hi hp, ← hs]

/-- Decoding the digits of a list of symbols emits the symbols. -/
theorem runWords_codes {s : State} {r : Nat} (xs : List Byte) (code : Byte → List Bool) (herr : s.errCode = 0#4)
    (hs : s.tstate = .tReady r r) (hd : s.decDone = false) (hc : ∀ x ∈ xs, IsCode s.node r x (code x)) :
    runWords ((xs.flatMap code).map decWord) s = .next { s with out := s.out ++ xs } := by
  induction xs generalizing s with
  | nil => simp [runWords]
  | cons x xs ih =>
    rw [List.flatMap_cons, List.map_append, runWords_append, runWords_code herr hs (hc x (by simp))]
    simp only
    rw [ih (s := { s with decDone := false, out := s.out ++ [x] }) herr hs rfl (fun y hy => hc y (by simp [hy]))]
    simp [hd]

/-- Encoding a list of symbols emits the digits of their codes. -/
theorem runWords_enc {s : State} (xs : List Byte) (herr : s.errCode = 0#4) (hc : ∀ x ∈ xs, s.codeLen x ≠ 0) :
    runWords (xs.map fun x => encode (.enc x)) s = .next (s.emit ((xs.flatMap s.codeOf).map digitOfBit)) := by
  induction xs generalizing s with
  | nil => simp [runWords, State.emit]
  | cons x xs ih =>
    rw [List.map_cons]
    have : perform (encode (.enc x)) s = .next (s.emit ((s.codeOf x).map digitOfBit)) := by
      rw [perform_encode _ herr]; exact execEnc_entry (hc x (by simp))
    rw [runWords_cons_next this, ih (s := s.emit ((s.codeOf x).map digitOfBit)) herr (fun y hy => hc y (by simp [hy]))]
    simp only [State.emit, List.append_assoc, List.flatMap_cons, List.map_append]
    rfl

theorem mem_participants (t : ByteTable Word) (x : Byte) : x ∈ participants t ↔ 0#32 < readTable t x := by
  simp [participants, mem_symbols]

theorem sum_count (l : List Byte) : (symbols.map fun x => l.count x).sum = l.length := by
  induction l with
  | nil => simp
  | cons y l ih =>
    have key : ∀ m : List Byte, m.Nodup → (m.map fun x => (y :: l).count x).sum = (m.map fun x => l.count x).sum + if y ∈ m then 1 else 0 := by
      intro m hm
      induction m with
      | nil => simp
      | cons z m ihm =>
        rw [List.nodup_cons] at hm
        rw [List.map_cons, List.sum_cons, ihm hm.2, List.map_cons, List.sum_cons, List.count_cons]
        by_cases hz : y = z
        · subst hz; simp [hm.1]; omega
        · simp [hz]; omega
    rw [key _ symbols_nodup, if_pos (mem_symbols y), ih]; rfl

end Sys2Proof.Machine
end

