-- ==== Sys2Proof/Laws/State.lean ====
section
/-! SUPPORT. One lemma per field of State and per named update of it, so that no proof need unfold a record update. -/

namespace Sys2Proof.Machine

variable (s : State)

/-! A write of one weight (R23) changes the weight table and nothing else. -/

@[simp] theorem State.setWeight_weight (x : Byte) (v : Word) : (s.setWeight x v).weight = writeTable s.weight x v := rfl
@[simp] theorem State.setWeight_node (x : Byte) (v : Word) : (s.setWeight x v).node = s.node := rfl
@[simp] theorem State.setWeight_nleaves (x : Byte) (v : Word) : (s.setWeight x v).nleaves = s.nleaves := rfl
@[simp] theorem State.setWeight_pq (x : Byte) (v : Word) : (s.setWeight x v).pq = s.pq := rfl
@[simp] theorem State.setWeight_tstate (x : Byte) (v : Word) : (s.setWeight x v).tstate = s.tstate := rfl
@[simp] theorem State.setWeight_code (x : Byte) (v : Word) : (s.setWeight x v).code = s.code := rfl
@[simp] theorem State.setWeight_tableValid (x : Byte) (v : Word) : (s.setWeight x v).tableValid = s.tableValid := rfl
@[simp] theorem State.setWeight_decDone (x : Byte) (v : Word) : (s.setWeight x v).decDone = s.decDone := rfl
@[simp] theorem State.setWeight_errCode (x : Byte) (v : Word) : (s.setWeight x v).errCode = s.errCode := rfl
@[simp] theorem State.setWeight_errOpc (x : Byte) (v : Word) : (s.setWeight x v).errOpc = s.errOpc := rfl
@[simp] theorem State.setWeight_errByte (x : Byte) (v : Word) : (s.setWeight x v).errByte = s.errByte := rfl
@[simp] theorem State.setWeight_pending (x : Byte) (v : Word) : (s.setWeight x v).pending = s.pending := rfl
@[simp] theorem State.setWeight_out (x : Byte) (v : Word) : (s.setWeight x v).out = s.out := rfl
@[simp] theorem State.setWeight_host (x : Byte) (v : Word) : (s.setWeight x v).host = s.host := rfl
@[simp] theorem State.setWeight_replies (x : Byte) (v : Word) : (s.setWeight x v).replies = s.replies := rfl
@[simp] theorem State.setWeight_draws (x : Byte) (v : Word) : (s.setWeight x v).draws = s.draws := rfl

/-! `emit` (R66) appends to the output stream and changes nothing else. -/

@[simp] theorem State.emit_weight (bytes : List Byte) : (s.emit bytes).weight = s.weight := rfl
@[simp] theorem State.emit_node (bytes : List Byte) : (s.emit bytes).node = s.node := rfl
@[simp] theorem State.emit_nleaves (bytes : List Byte) : (s.emit bytes).nleaves = s.nleaves := rfl
@[simp] theorem State.emit_pq (bytes : List Byte) : (s.emit bytes).pq = s.pq := rfl
@[simp] theorem State.emit_tstate (bytes : List Byte) : (s.emit bytes).tstate = s.tstate := rfl
@[simp] theorem State.emit_code (bytes : List Byte) : (s.emit bytes).code = s.code := rfl
@[simp] theorem State.emit_tableValid (bytes : List Byte) : (s.emit bytes).tableValid = s.tableValid := rfl
@[simp] theorem State.emit_decDone (bytes : List Byte) : (s.emit bytes).decDone = s.decDone := rfl
@[simp] theorem State.emit_errCode (bytes : List Byte) : (s.emit bytes).errCode = s.errCode := rfl
@[simp] theorem State.emit_errOpc (bytes : List Byte) : (s.emit bytes).errOpc = s.errOpc := rfl
@[simp] theorem State.emit_errByte (bytes : List Byte) : (s.emit bytes).errByte = s.errByte := rfl
@[simp] theorem State.emit_pending (bytes : List Byte) : (s.emit bytes).pending = s.pending := rfl
@[simp] theorem State.emit_out (bytes : List Byte) : (s.emit bytes).out = s.out ++ bytes := rfl
@[simp] theorem State.emit_host (bytes : List Byte) : (s.emit bytes).host = s.host := rfl
@[simp] theorem State.emit_replies (bytes : List Byte) : (s.emit bytes).replies = s.replies := rfl
@[simp] theorem State.emit_draws (bytes : List Byte) : (s.emit bytes).draws = s.draws := rfl

/-! `raise` (R272) writes the error record and nothing else. -/

@[simp] theorem State.recordError_weight (e : HufError) (w : Word) : (s.recordError e w).weight = s.weight := rfl
@[simp] theorem State.recordError_node (e : HufError) (w : Word) : (s.recordError e w).node = s.node := rfl
@[simp] theorem State.recordError_nleaves (e : HufError) (w : Word) : (s.recordError e w).nleaves = s.nleaves := rfl
@[simp] theorem State.recordError_pq (e : HufError) (w : Word) : (s.recordError e w).pq = s.pq := rfl
@[simp] theorem State.recordError_tstate (e : HufError) (w : Word) : (s.recordError e w).tstate = s.tstate := rfl
@[simp] theorem State.recordError_code (e : HufError) (w : Word) : (s.recordError e w).code = s.code := rfl
@[simp] theorem State.recordError_tableValid (e : HufError) (w : Word) : (s.recordError e w).tableValid = s.tableValid := rfl
@[simp] theorem State.recordError_decDone (e : HufError) (w : Word) : (s.recordError e w).decDone = s.decDone := rfl
@[simp] theorem State.recordError_errCode (e : HufError) (w : Word) : (s.recordError e w).errCode = e.code := rfl
@[simp] theorem State.recordError_errOpc (e : HufError) (w : Word) : (s.recordError e w).errOpc = opcField w := rfl
@[simp] theorem State.recordError_errByte (e : HufError) (w : Word) : (s.recordError e w).errByte = byteField w := rfl
@[simp] theorem State.recordError_pending (e : HufError) (w : Word) : (s.recordError e w).pending = s.pending := rfl
@[simp] theorem State.recordError_out (e : HufError) (w : Word) : (s.recordError e w).out = s.out := rfl
@[simp] theorem State.recordError_host (e : HufError) (w : Word) : (s.recordError e w).host = s.host := rfl
@[simp] theorem State.recordError_replies (e : HufError) (w : Word) : (s.recordError e w).replies = s.replies := rfl
@[simp] theorem State.recordError_draws (e : HufError) (w : Word) : (s.recordError e w).draws = s.draws := rfl

/-! Clearing the error record (R252) changes nothing else. -/

@[simp] theorem State.clearError_weight : (s.clearError).weight = s.weight := rfl
@[simp] theorem State.clearError_node : (s.clearError).node = s.node := rfl
@[simp] theorem State.clearError_nleaves : (s.clearError).nleaves = s.nleaves := rfl
@[simp] theorem State.clearError_pq : (s.clearError).pq = s.pq := rfl
@[simp] theorem State.clearError_tstate : (s.clearError).tstate = s.tstate := rfl
@[simp] theorem State.clearError_code : (s.clearError).code = s.code := rfl
@[simp] theorem State.clearError_tableValid : (s.clearError).tableValid = s.tableValid := rfl
@[simp] theorem State.clearError_decDone : (s.clearError).decDone = s.decDone := rfl
@[simp] theorem State.clearError_errCode : (s.clearError).errCode = 0#4 := rfl
@[simp] theorem State.clearError_errOpc : (s.clearError).errOpc = 0#8 := rfl
@[simp] theorem State.clearError_errByte : (s.clearError).errByte = 0#8 := rfl
@[simp] theorem State.clearError_pending : (s.clearError).pending = s.pending := rfl
@[simp] theorem State.clearError_out : (s.clearError).out = s.out := rfl
@[simp] theorem State.clearError_host : (s.clearError).host = s.host := rfl
@[simp] theorem State.clearError_replies : (s.clearError).replies = s.replies := rfl
@[simp] theorem State.clearError_draws : (s.clearError).draws = s.draws := rfl

/-! A reset of the block (R251, R300) leaves the pending command, the output stream and the host's side. -/

@[simp] theorem State.clearBlock_weight : (s.clearBlock).weight = State.reset.weight := rfl
@[simp] theorem State.clearBlock_node : (s.clearBlock).node = State.reset.node := rfl
@[simp] theorem State.clearBlock_nleaves : (s.clearBlock).nleaves = State.reset.nleaves := rfl
@[simp] theorem State.clearBlock_pq : (s.clearBlock).pq = State.reset.pq := rfl
@[simp] theorem State.clearBlock_tstate : (s.clearBlock).tstate = State.reset.tstate := rfl
@[simp] theorem State.clearBlock_code : (s.clearBlock).code = State.reset.code := rfl
@[simp] theorem State.clearBlock_tableValid : (s.clearBlock).tableValid = State.reset.tableValid := rfl
@[simp] theorem State.clearBlock_decDone : (s.clearBlock).decDone = State.reset.decDone := rfl
@[simp] theorem State.clearBlock_errCode : (s.clearBlock).errCode = State.reset.errCode := rfl
@[simp] theorem State.clearBlock_errOpc : (s.clearBlock).errOpc = State.reset.errOpc := rfl
@[simp] theorem State.clearBlock_errByte : (s.clearBlock).errByte = State.reset.errByte := rfl
@[simp] theorem State.clearBlock_pending : (s.clearBlock).pending = s.pending := rfl
@[simp] theorem State.clearBlock_out : (s.clearBlock).out = s.out := rfl
@[simp] theorem State.clearBlock_host : (s.clearBlock).host = s.host := rfl
@[simp] theorem State.clearBlock_replies : (s.clearBlock).replies = s.replies := rfl
@[simp] theorem State.clearBlock_draws : (s.clearBlock).draws = s.draws := rfl

/-! Placing a pending command changes nothing of the block but `pending`. -/

@[simp] theorem State.withPending_weight (w : Word) : (s.withPending w).weight = s.weight := rfl
@[simp] theorem State.withPending_node (w : Word) : (s.withPending w).node = s.node := rfl
@[simp] theorem State.withPending_nleaves (w : Word) : (s.withPending w).nleaves = s.nleaves := rfl
@[simp] theorem State.withPending_pq (w : Word) : (s.withPending w).pq = s.pq := rfl
@[simp] theorem State.withPending_tstate (w : Word) : (s.withPending w).tstate = s.tstate := rfl
@[simp] theorem State.withPending_code (w : Word) : (s.withPending w).code = s.code := rfl
@[simp] theorem State.withPending_tableValid (w : Word) : (s.withPending w).tableValid = s.tableValid := rfl
@[simp] theorem State.withPending_decDone (w : Word) : (s.withPending w).decDone = s.decDone := rfl
@[simp] theorem State.withPending_errCode (w : Word) : (s.withPending w).errCode = s.errCode := rfl
@[simp] theorem State.withPending_errOpc (w : Word) : (s.withPending w).errOpc = s.errOpc := rfl
@[simp] theorem State.withPending_errByte (w : Word) : (s.withPending w).errByte = s.errByte := rfl
@[simp] theorem State.withPending_pending (w : Word) : (s.withPending w).pending = some w := rfl
@[simp] theorem State.withPending_out (w : Word) : (s.withPending w).out = s.out := rfl
@[simp] theorem State.withPending_host (w : Word) : (s.withPending w).host = deferHost s.host := rfl
@[simp] theorem State.withPending_replies (w : Word) : (s.withPending w).replies = s.replies := rfl
@[simp] theorem State.withPending_draws (w : Word) : (s.withPending w).draws = s.draws := rfl

end Sys2Proof.Machine
end

