-- ==== Sys2Proof/Tests/Slice0.lean ====
section
/-! SUPPORT. The model's own tests, whose expected results are those of 30_encoding.md and 95_test_vectors.md, and for every
statement with hypotheses a witness that meets them. -/

namespace Sys2Proof.Tests

open Sys2Proof.Machine

/-! ### Helpers -/

/-- The state an outcome goes on in; the reset state where it stops. -/
def after : Outcome → State
  | .next t => t
  | .fault _ | .refused _ => State.reset

/-- The outcome is a next state. -/
def goesOn : Outcome → Bool
  | .next _ => true
  | .fault _ | .refused _ => false

theorem eq_next_after {o : Outcome} (h : goesOn o = true) : o = .next (after o) := by
  cases o with
  | next t => rfl
  | fault f => cases h
  | refused r => cases h

/-- One step on a written command word. -/
def doWord (w : Word) (s : State) : State := after (step (s.withPending w))

/-- The register at a byte offset. -/
def reg (s : State) (off : Nat) : Word := s.regRead (BitVec.ofNat 14 off)

/-- A state with two weights and nothing else. -/
def twoWeights (x y : Byte) (v w : Word) : State := (State.reset.setWeight x v).setWeight y w

/-- Vector T1 before BINIT: a = 3, b = 1. -/
def abWeights : State := twoWeights 0x61#8 0x62#8 3#32 1#32

/-- Vector T1 after BINIT. -/
def abBuilding : State :=
  { abWeights with node := [.leaf 0x61#8 3#32, .leaf 0x62#8 1#32], nleaves := 2, pq := [1, 0], tstate := .tBuilding }

/-- Vector T1 after FINISH. -/
def abTree : State :=
  { abWeights with node := [.leaf 0x61#8 3#32, .leaf 0x62#8 1#32, .internal 4#32 1 0], nleaves := 2, tstate := .tReady 2 2 }

/-- Vector T1 after GENTAB. -/
def abTable : State :=
  { abTree with code := writeTable (writeTable emptyTable 0x61#8 [true]) 0x62#8 [false], tableValid := true }

/-- Vector T6 before and after BINIT, after FINISH and after GENTAB: z = 4. -/
def zWeights : State := State.reset.setWeight 0x7A#8 4#32
def zBuilding : State := { zWeights with node := [.leaf 0x7A#8 4#32], nleaves := 1, pq := [0], tstate := .tBuilding }
def zTree : State := { zWeights with node := [.leaf 0x7A#8 4#32], nleaves := 1, tstate := .tReady 0 0 }
def zTable : State := { zTree with code := writeTable emptyTable 0x7A#8 [false], tableValid := true }

/-- Vector T3: a = 1, b = 1, c = 2. -/
def abcWeights : State := (twoWeights 0x61#8 0x62#8 1#32 1#32).setWeight 0x63#8 2#32
def abcLeaves : List Node := [.leaf 0x61#8 1#32, .leaf 0x62#8 1#32, .leaf 0x63#8 2#32]
def abcBuilding : State := { abcWeights with node := abcLeaves, nleaves := 3, pq := [0, 1, 2], tstate := .tBuilding }
def abcTree : State :=
  { abcWeights with node := abcLeaves ++ [.internal 2#32 0 1, .internal 4#32 2 3], nleaves := 3, tstate := .tReady 4 4 }

/-- Vector D2: the cursor on node 3. -/
def abcMid : State := { abcTree with tstate := .tReady 4 3 }

/-- Vector T11: two weights whose sum is 2^32; and vector T13: a sum of 2^32 - 1. -/
def overWeights : State := twoWeights 0#8 1#8 0xFFFFFFFF#32 1#32
def fullWeights : State := twoWeights 0#8 1#8 0xFFFFFFFE#32 1#32
def overBuilding : State :=
  { overWeights with node := [.leaf 0#8 0xFFFFFFFF#32, .leaf 1#8 1#32], nleaves := 2, pq := [1, 0], tstate := .tBuilding }
def fullBuilding : State :=
  { fullWeights with node := [.leaf 0#8 0xFFFFFFFE#32, .leaf 1#8 1#32], nleaves := 2, pq := [1, 0], tstate := .tBuilding }

/-- Vector T15 after BINIT, and after FINISH. -/
def emptyBuilding : State := { State.reset with tstate := .tBuilding }
def emptyTree : State := { State.reset with tstate := .tEmpty }

/-- Vector C1: IllegalCommand is pending. -/
def failed : State := { State.reset with errCode := 8#4, errOpc := 0x03#8 }

/-! ### Decoding and encoding: words written from R91 to R96 bit by bit -/

theorem test_decode_wclr : decode 0b00010000000000000000000000000000#32 = .ok .wclr := by decide
theorem test_decode_wsetl : decode 0b00010001011000010000000000000011#32 = .ok (.wsetl 0x61#8 3#16) := by decide
theorem test_decode_wseth : decode 0b00010010111111111000000000000001#32 = .ok (.wseth 0xFF#8 0x8001#16) := by decide
theorem test_decode_binit : decode 0b00100000000000000000000000000000#32 = .ok .binit := by decide
theorem test_decode_merge : decode 0b00100001000000000000000000000000#32 = .ok .merge := by decide
theorem test_decode_finish : decode 0b00100010000000000000000000000000#32 = .ok .finish := by decide
theorem test_decode_build : decode 0b00100011000000000000000000000000#32 = .ok .build := by decide
theorem test_decode_gentab : decode 0b00110000000000000000000000000000#32 = .ok .gentab := by decide
theorem test_decode_enc : decode 0b01000000011000010000000000000000#32 = .ok (.enc 0x61#8) := by decide
theorem test_decode_dstart : decode 0b01010000000000000000000000000000#32 = .ok .dstart := by decide
theorem test_decode_dec : decode 0b01010001001100010000000000000000#32 = .ok (.dec 0x31#8) := by decide
theorem test_decode_dend : decode 0b01010010000000000000000000000000#32 = .ok .dend := by decide
theorem test_decode_nop : decode 0b00000000000000000000000000000000#32 = .ok .nop := by decide
theorem test_decode_srst : decode 0b00000001000000000000000000000000#32 = .ok .srst := by decide
theorem test_decode_eclr : decode 0b00000010000000000000000000000000#32 = .ok .eclr := by decide
theorem test_encode_wsetl : encode (.wsetl 0x61#8 3#16) = 0x11610003#32 := by decide
theorem test_decodeTableWord : decodeTableWord 32 0x51310000 = some (.dec 0x31#8) ∧ decodeTableWord 32 0x51310001 = none := by
  decide

/-! ### Well-formedness: each check refuses an ill-formed term -/

theorem test_wf_unassigned_opcode : wordWellFormed 0x03000000#32 = false := by decide
theorem test_wf_format_n_bits : wordWellFormed 0x20000001#32 = false ∧ wordWellFormed 0x00800000#32 = false := by decide
theorem test_wf_format_b_bits : wordWellFormed 0x40610001#32 = false ∧ wordWellFormed 0x51318000#32 = false := by decide
theorem test_wf_format_w_admits_all : wordWellFormed 0x11FFFFFF#32 = true := by decide
theorem test_wf_wsetl : (Asm.wsetl 255 65535).wf = true ∧ (Asm.wsetl 256 0).wf = false ∧ (Asm.wsetl 0 65536).wf = false := by
  decide
theorem test_wf_wseth : (Asm.wseth 256 0).wf = false ∧ (Asm.wseth 0 65536).wf = false := by decide
theorem test_wf_enc : (Asm.enc 255).wf = true ∧ (Asm.enc 256).wf = false := by decide
theorem test_wf_dec : (Asm.dec 255).wf = true ∧ (Asm.dec 256).wf = false := by decide
theorem test_wf_wset : (Asm.wset 0 4294967295).wf = true ∧ (Asm.wset 0 4294967296).wf = false ∧ (Asm.wset 256 0).wf = false := by
  decide
theorem test_wf_encstr : (Asm.encstr [0x61, 256]).wf = false := by decide
theorem test_wf_decstr : (Asm.decstr [0x31, 256]).wf = false := by decide

/-! ### The assembler (R100, R101) -/

/-- The text `WSETL 'a', 3` assembles to 0x11610003 (R100), in small letters and with a comment too. -/
theorem test_assemble_wsetl : assembleLine "wsetl 'a', 3 ; three".toList = some [0x11610003#32] := by decide
theorem test_assemble_hex : assembleLine "DEC 0x30".toList = some [0x51300000#32] := by decide
theorem test_assemble_out_of_range : assembleLine "ENC 256".toList = none := by decide
theorem test_assemble_comment_only : assembleLine "  ; nothing".toList = some [] := by decide
theorem test_assemble_wset :
    assembleLine "WSET 1, 65536".toList = some [0x11010000#32, 0x12010001#32] ∧
    assembleLine "WSET 1, 65535".toList = some [0x1101FFFF#32] := by decide
/-- R101: `DECSTR "10"` is `DEC 0x31`, `DEC 0x30`; the double quote is character 34. -/
theorem test_assemble_decstr :
    assembleLine ("DECSTR ".toList ++ [Char.ofNat 34, '1', '0', Char.ofNat 34]) = some [0x51310000#32, 0x51300000#32] := by
  decide
theorem test_assemble_compile : assembleLine "COMPILE".toList = some [0x23000000#32, 0x30000000#32] := by decide

/-! ### Commands, one step each -/

/-- W1, W3. -/
theorem test_wsetl : reg (doWord 0x11610003#32 State.reset) 0x0584 = 3#32 ∧
    (doWord 0x11610005#32 (State.reset.setWeight 0x61#8 0x20003#32)).weightOf 0x61#8 = 5#32 := by decide +kernel
/-- W2, W4. -/
theorem test_wseth : (doWord 0x12610002#32 (State.reset.setWeight 0x61#8 3#32)).weightOf 0x61#8 = 0x20003#32 ∧
    (doWord 0x1200FFFF#32 (State.reset.setWeight 0#8 0xFFFF#32)).weightOf 0#8 = 0xFFFFFFFF#32 := by decide +kernel
/-- W6: WCLR leaves the weights copied into the tree. -/
theorem test_wclr : (doWord 0x10000000#32 abTree).weightOf 0x61#8 = 0#32 ∧ reg (doWord 0x10000000#32 abTree) 0x0800 = 3#32 := by
  decide +kernel
/-- T1 after BINIT; the whole state is that of the vector. -/
theorem test_binit : loadQueue abWeights = abBuilding := by decide +kernel
/-- T16: BINIT discards the tree, the table and the cursor. -/
theorem test_binit_discards : doWord 0x20000000#32 { abTable with decDone := true } = abBuilding := by decide +kernel
/-- T3: the first merge takes the nodes 0 and 1 and goes after the leaf of equal weight. -/
theorem test_merge : (doWord 0x21000000#32 abcBuilding).pq = [2, 3] ∧ reg (doWord 0x21000000#32 abcBuilding) 0x100C = 0xC0010000#32 := by
  decide +kernel
/-- T11: WeightOverflow, with nothing else changed; T8: EmptyQueue on the last node. -/
theorem test_merge_errors : doWord 0x21000000#32 overBuilding = { overBuilding with errCode := 5#4, errOpc := 0x21#8 } ∧
    doWord 0x21000000#32 zBuilding = { zBuilding with errCode := 1#4, errOpc := 0x21#8 } := by
  decide +kernel
/-- T3 after FINISH. -/
theorem test_finish : doWord 0x22000000#32 abcBuilding = abcTree := by decide +kernel
/-- T10: STATUS after SequenceError in READY. -/
theorem test_finish_ready : reg (doWord 0x22000000#32 zTree) 0x0008 = 0x00002206#32 ∧ reg (doWord 0x22000000#32 zTree) 0x0004 = 0x64#32 := by
  decide +kernel
/-- T13: a sum of 2^32 - 1 fits. -/
theorem test_build : (doWord 0x23000000#32 fullWeights).node[2]? = some (.internal 0xFFFFFFFF#32 1 0) := by decide +kernel
/-- T12: the error is reported with BUILD's opcode, and the BINIT part stands. -/
theorem test_build_overflow : doWord 0x23000000#32 overWeights = { overBuilding with errCode := 5#4, errOpc := 0x23#8 } := by
  decide +kernel
/-- G3: the words of the code table for T3. -/
theorem test_gentab : reg (doWord 0x30000000#32 abcTree) 0x1D84 = 2#32 ∧ reg (doWord 0x30000000#32 abcTree) 0x2C20 = 1#32 ∧
    reg (doWord 0x30000000#32 abcTree) 0x2C40 = 3#32 ∧ reg (doWord 0x30000000#32 abcTree) 0x1D8C = 1#32 := by decide +kernel
/-- G4: the one-digit code of a single leaf. -/
theorem test_gentab_single : doWord 0x30000000#32 zTree = zTable := by decide +kernel
/-- X1, X2. -/
theorem test_enc : (doWord 0x40610000#32 abTable).out = [0x31#8] ∧ (doWord 0x40620000#32 abTable).out = [0x30#8] := by decide +kernel
/-- X4. -/
theorem test_enc_unknown : reg (doWord 0x40630000#32 abTable) 0x0008 = 0x00634002#32 ∧ (doWord 0x40630000#32 abTable).out = [] := by
  decide +kernel
/-- D5: DSTART leaves the middle of a sequence. -/
theorem test_dstart : doWord 0x50000000#32 abcMid = abcTree := by decide +kernel
/-- D10. -/
theorem test_dstart_none : reg (doWord 0x50000000#32 State.reset) 0x0008 = 0x00005006#32 := by decide +kernel
/-- D2 and D3: bit 1 selects child 1; a leaf is emitted and the cursor returns. -/
theorem test_dec : doWord 0x51310000#32 abcTree = abcMid ∧ doWord 0x51300000#32 abcMid = { abcTree with out := [0x61#8] } := by
  decide +kernel
/-- D6 and D8: both digits decode in a single-leaf tree; the state is checked before the digit. -/
theorem test_dec_single : (doWord 0x51310000#32 zTree).out = [0x7A#8] ∧ reg (doWord 0x51320000#32 State.reset) 0x0008 = 0x00325107#32 := by
  decide +kernel
/-- D4. -/
theorem test_dend_mid : reg (doWord 0x52000000#32 abcMid) 0x0008 = 0x00005204#32 ∧ reg (doWord 0x52000000#32 abcMid) 0x0014 = 0x80000003#32 := by
  decide +kernel
/-- D12. -/
theorem test_dend_empty : reg (doWord 0x52000000#32 emptyTree) 0x0004 = 0x16#32 := by decide +kernel
/-- C8, C3. -/
theorem test_nop : doWord 0x00000000#32 abTable = abTable ∧ reg (doWord 0x00000001#32 State.reset) 0x0008 = 0x00000008#32 := by decide +kernel
/-- C7. -/
theorem test_srst : doWord 0x01000000#32 { abTable with out := [0x31#8] } = { State.reset with out := [0x31#8] } := by decide +kernel
/-- C6, C5. -/
theorem test_eclr : doWord 0x02000000#32 failed = State.reset ∧ doWord 0x02000001#32 failed = failed := by decide +kernel
/-- C4: a command is discarded while an error is pending. -/
theorem test_gate : doWord 0x117A0004#32 failed = failed := by decide +kernel
/-- C1: ERRINFO and STATUS. -/
theorem test_illegal : reg (doWord 0x03000000#32 State.reset) 0x0008 = 0x00000308#32 ∧ reg (doWord 0x03000000#32 State.reset) 0x0004 = 0x40#32 := by
  decide +kernel
/-- T2: the registers of the queue after BINIT. -/
theorem test_registers : reg { abBuilding with pq := [1, 2, 0] } 0x1800 = 0x80000001#32 ∧ reg { abBuilding with pq := [1, 2, 0] } 0x1808 = 0x80000000#32 ∧
    reg { abBuilding with pq := [1, 2, 0] } 0x180C = 0#32 ∧ reg { abBuilding with pq := [1, 2, 0] } 0x0004 = 0x30002#32 := by decide +kernel
/-- T1 after GENTAB: TREEINFO, ROOT, NODE_D, STATUS (P1's end state before the decode's end). -/
theorem test_registers_ready : reg abTable 0x000C = 0x00030002#32 ∧ reg abTable 0x0010 = 0x80000002#32 ∧ reg abTable 0x1008 = 0xC0000001#32 ∧
    reg abTable 0x0004 = 0x2C#32 := by decide +kernel

/-! ### States that satisfy the invariant -/

theorem abBuilding_inv : abBuilding.Inv := test_binit ▸ loadQueue_inv (s := abWeights) (by decide)

theorem zBuilding_loaded : loadQueue zWeights = zBuilding := by decide +kernel
theorem zBuilding_inv : zBuilding.Inv := zBuilding_loaded ▸ loadQueue_inv (s := zWeights) (by decide)

theorem abcBuilding_loaded : loadQueue abcWeights = abcBuilding := by decide +kernel
theorem abcBuilding_inv : abcBuilding.Inv := abcBuilding_loaded ▸ loadQueue_inv (s := abcWeights) (by decide)

theorem fullBuilding_loaded : loadQueue fullWeights = fullBuilding := by decide +kernel
theorem fullBuilding_inv : fullBuilding.Inv := fullBuilding_loaded ▸ loadQueue_inv (s := fullWeights) (by decide)

theorem emptyBuilding_loaded : loadQueue State.reset = emptyBuilding := by decide +kernel
theorem emptyBuilding_inv : emptyBuilding.Inv := emptyBuilding_loaded ▸ loadQueue_inv (s := State.reset) (by decide)

/-- FINISH of a state that satisfies the invariant gives one that does. -/
theorem finished_inv {s t : State} (h : s.Inv) (e : after (exec .finish s) = t) : t.Inv := by
  obtain ⟨u, hu, hi⟩ := finishTree_inv (encode .finish) h
  have : exec .finish s = .next u := hu
  rw [this] at e
  exact (show u = t from e) ▸ hi

theorem abTree_inv : abTree.Inv := finished_inv abBuilding_inv (by decide +kernel)
theorem zTree_inv : zTree.Inv := finished_inv zBuilding_inv (by decide +kernel)
theorem abcTree_inv : abcTree.Inv := finished_inv abcBuilding_inv (by decide +kernel)
theorem emptyTree_inv : emptyTree.Inv := finished_inv emptyBuilding_inv (by decide +kernel)

theorem abcMid_inv : abcMid.Inv :=
  abcTree_inv.moveCursor (r := 4) (c := 4) rfl (.inr ⟨_, _, _, rfl⟩) false [] (by decide)

/-- GENTAB's table of a READY tree satisfies the invariant. -/
theorem tabled_inv {s : State} {r c : Nat} {t : ByteTable (List Bool)} (h : s.Inv) (hs : s.tstate = .tReady r c)
    (ht : treeTable s.node r = .ok t) : ({ s with code := t, tableValid := true } : State).Inv :=
  ⟨h.arena, h.sorted, h.phase, h.cursorPlace, h.donePlace, fun hv => by simp at hv, fun _ => .inr ⟨r, c, hs, ht⟩, h.errRecord⟩

theorem abTable_inv : abTable.Inv := tabled_inv abTree_inv rfl rfl
theorem zTable_inv : zTable.Inv := tabled_inv zTree_inv rfl rfl

/-! ### Witnesses: for each statement with hypotheses, data that meet them together -/

theorem witness_OpcodeRowsSelectCommands : ∃ r ∈ opcodeTable, r.selects 0x51300000#32 = true := by decide

theorem witness_IllegalWordsRaiseIllegalCommand :
    (∃ e, decode 0x03000000#32 = .error e) ∧ (∃ e, decode 0x20000001#32 = .error e) ∧ (∃ e, decode 0x40610001#32 = .error e) ∧
    (∃ e, decode 0xFF000000#32 = .error e) ∧ State.reset.errCode = 0#4 ∧ failed.errCode ≠ 0#4 :=
  ⟨⟨_, rfl⟩, ⟨_, rfl⟩, ⟨_, rfl⟩, ⟨_, rfl⟩, rfl, by decide⟩

/-- The ranges of R100 and R101 at their bounds, and the string of R101's own example. -/
theorem witness_StatementsAssembleToTheirWords :
    assembleAsm (.enc 255) = some [0x40FF0000#32] ∧ assembleAsm (.dec 256) = none ∧
    assembleAsm (.wsetl 255 65535) = some [0x11FFFFFF#32] ∧ assembleAsm (.wseth 0 65536) = none ∧
    assembleAsm (.wset 0 65535) = some [0x1100FFFF#32] ∧ assembleAsm (.wset 0 65536) = some [0x11000000#32, 0x12000001#32] ∧
    assembleAsm (.wset 0 (2 ^ 32 - 1)) = some [0x1100FFFF#32, 0x1200FFFF#32] ∧ assembleAsm (.wset 0 (2 ^ 32)) = none ∧
    assembleAsm (.decstr [0x31, 0x30]) = some [0x51310000#32, 0x51300000#32] ∧ assembleAsm (.encstr [255, 256]) = none := by decide

theorem witness_StepRunsThePendingCommand :
    ((State.reset.withPending 0x11FFFFFF#32).hostTurn = none ∧ (State.reset.withPending 0x11FFFFFF#32).pending = some 0x11FFFFFF#32 ∧
      decode 0x11FFFFFF#32 = .ok (.wsetl 0xFF#8 0xFFFF#16) ∧ (State.reset.withPending 0x11FFFFFF#32).errCode = 0#4) ∧
    ((failed.withPending 0x02000000#32).hostTurn = none ∧ decode 0x02000000#32 = .ok .eclr ∧ failed.errCode ≠ 0#4) := by decide

theorem witness_PendingErrorDiscardsCommands :
    (failed.withPending 0x02000001#32).hostTurn = none ∧ (failed.withPending 0x02000001#32).pending = some 0x02000001#32 ∧
    (failed.withPending 0x02000001#32).errCode ≠ 0#4 ∧ (failed.withPending 0x01000000#32).hostTurn = none := by decide

theorem witness_CommandWritesAreHeldWhileBusy :
    (∃ s : State, s.host = [⟨false, .write .word 0#14 0#32⟩] ∧ s.pending = some 0#32 ∧ goesOn (step s) = true) ∧
    ∃ s : State, s.host = [⟨true, .write .word 0#14 0#32⟩] ∧ s.pending = none :=
  ⟨⟨{ State.reset with host := [⟨false, .write .word 0#14 0#32⟩], pending := some 0#32 }, rfl, rfl, by decide⟩,
   ⟨{ State.reset with host := [⟨true, .write .word 0#14 0#32⟩] }, rfl, rfl⟩⟩

theorem witness_IdleBlockWaits : State.reset.pending = none ∧ State.reset.host = [] := ⟨rfl, rfl⟩

theorem witness_ReservedReadsAndIgnoredWrites :
    (0x0018 ≤ (0x0018#14 : Offset).toNat ∧ (0x03FF#14 : Offset).toNat ≤ 0x03FF) ∧
    (∃ s : State, s.host = [⟨false, .write .word 0x0004#14 1#32⟩] ∧ (0x0004#14 : Offset) ≠ 0#14 ∧ s.pending = some 0#32) ∧
    (∃ s : State, s.host = [⟨true, .write .word 0x3FFC#14 1#32⟩] ∧ (0x3FFC#14 : Offset).toNat % 4 = 0 ∧ s.pending = none) :=
  ⟨by decide, ⟨{ State.reset with host := [⟨false, .write .word 0x0004#14 1#32⟩], pending := some 0#32 }, rfl, by decide, rfl⟩,
   ⟨{ State.reset with host := [⟨true, .write .word 0x3FFC#14 1#32⟩] }, rfl, by decide, rfl⟩⟩

theorem witness_ReadsHaveNoSideEffect :
    ∃ s : State, s.host = [⟨true, .read .word 0x3FFC#14⟩] ∧ (0x3FFC#14 : Offset).toNat % 4 = 0 ∧ s.pending = none :=
  ⟨{ State.reset with host := [⟨true, .read .word 0x3FFC#14⟩] }, rfl, by decide, rfl⟩

theorem witness_BusyReadsKnowOnlyBusy :
    (∃ s : State, s.pending = some 0#32 ∧ s.host = [⟨false, .read .word 0x0004#14⟩] ∧ (0x0004#14 : Offset).toNat % 4 = 0) ∧
    ∃ s : State, s.pending = some 0#32 ∧ s.host = [⟨false, .read .word 0x3FFC#14⟩] ∧ (0x3FFC#14 : Offset) ≠ 0x0004#14 ∧
      (0x3FFC#14 : Offset).toNat % 4 = 0 :=
  ⟨⟨{ State.reset with host := [⟨false, .read .word 0x0004#14⟩], pending := some 0#32 }, rfl, rfl, by decide⟩,
   ⟨{ State.reset with host := [⟨false, .read .word 0x3FFC#14⟩], pending := some 0#32 }, rfl, rfl, by decide, by decide⟩⟩

theorem witness_OtherAccessesAreRefused :
    ({ State.reset with host := [⟨false, .read .word 0x0002#14⟩] } : State).hostTurn = some (.read .word 0x0002#14, []) ∧
    ({ State.reset with host := [⟨false, .write .half 0#14 0#32⟩] } : State).hostTurn = some (.write .half 0#14 0#32, []) := by decide

theorem witness_ResetClearsTheBlock :
    ({ State.reset with host := [⟨false, .reset⟩] } : State).hostTurn = some (.reset, []) ∧
    ({ abTable with host := [⟨false, .reset⟩], pending := some 0x40610000#32 } : State).hostTurn = some (.reset, []) := by decide

theorem witness_StatusShowsTheFlags : ({ State.reset with pq := List.replicate 256 0 } : State).pq.length ≤ 256 :=
  Nat.le_of_eq List.length_replicate

theorem witness_InfoRegistersShowTheState :
    ∃ s : State, s.node.length ≤ 511 ∧ s.nleaves ≤ 256 ∧ s.tstate = .tReady 510 510 ∧
      ∀ r c, s.tstate = .tReady r c → r < 511 ∧ c < 511 :=
  ⟨{ State.reset with node := List.replicate 511 (.leaf 0#8 1#32), nleaves := 256, tstate := .tReady 510 510 },
   Nat.le_of_eq List.length_replicate, Nat.le_refl _, rfl, fun r c h => by simp at h; omega⟩

theorem witness_InfoRegistersShowTheState_no_tree : ∀ r c, State.reset.tstate ≠ .tReady r c := fun _ _ h => by cases h

theorem witness_TableWindowsShowTheTables :
    ∃ s : State, s.codeLen 0xFF#8 ≤ 255 ∧ s.codeLen 0xFF#8 = 255 :=
  ⟨{ State.reset with code := writeTable emptyTable 0xFF#8 (List.replicate 255 true) }, by decide +kernel, by decide +kernel⟩

theorem witness_TreeWindowsShowTheTree :
    abTree.node[511]? = none ∧ abTree.node[0]? = some (.leaf 0x61#8 3#32) ∧ abTree.node[2]? = some (.internal 4#32 1 0) ∧
    abBuilding.pq[255]? = none ∧ abBuilding.pq[0]? = some 1 := by decide

theorem witness_WsetLoadsAWholeWeight : (255 : Nat) ≤ 255 ∧ 4294967295 < 2 ^ 32 ∧ State.reset.errCode = 0#4 := by decide

theorem witness_QueueInsertionIsStable :
    ([0, 1, 2] : List Nat).Pairwise (fun i j => wt abcLeaves i ≤ wt abcLeaves j) := by decide

theorem witness_MergeJoinsTheTwoFrontNodes :
    (fullBuilding.pq = 1 :: 0 :: [] ∧ (wt fullBuilding.node 1).toNat + (wt fullBuilding.node 0).toNat < 2 ^ 32) ∧
    (overBuilding.pq = 1 :: 0 :: [] ∧ 2 ^ 32 ≤ (wt overBuilding.node 1).toNat + (wt overBuilding.node 0).toNat) ∧
    zBuilding.pq.length < 2 := by decide

theorem witness_FinishMergesAndTakesTheRoot :
    abTree.tstate ≠ .tBuilding ∧ (emptyBuilding.tstate = .tBuilding ∧ emptyBuilding.pq = []) ∧
    (∃ t, abcBuilding.tstate = .tBuilding ∧ abcBuilding.errCode = 0#4 ∧
      runWords (List.replicate 2 (encode .merge)) abcBuilding = .next t ∧ t.errCode = 0#4 ∧ t.pq = [4]) ∧
    (∃ t, overBuilding.tstate = .tBuilding ∧ overBuilding.errCode = 0#4 ∧
      runWords (List.replicate 0 (encode .merge)) overBuilding = .next t ∧ t.errCode = 0#4 ∧ t.pq = 1 :: 0 :: [] ∧
      2 ^ 32 ≤ (wt t.node 1).toNat + (wt t.node 0).toNat) :=
  ⟨by decide, by decide, ⟨_, rfl, rfl, eq_next_after (by decide), by decide, by decide⟩,
   ⟨overBuilding, rfl, rfl, rfl, rfl, rfl, by decide⟩⟩

theorem witness_FinishCompletesTheTree :
    (emptyBuilding.Inv ∧ emptyBuilding.tstate = .tBuilding ∧ emptyBuilding.nleaves = 0) ∧
    (fullBuilding.Inv ∧ fullBuilding.tstate = .tBuilding ∧ 0 < fullBuilding.nleaves ∧
      (fullBuilding.pq.map fun i => (wt fullBuilding.node i).toNat).sum < 2 ^ 32) :=
  ⟨⟨emptyBuilding_inv, rfl, rfl⟩, ⟨fullBuilding_inv, rfl, by decide, by decide⟩⟩

theorem overBuilding_loaded : loadQueue overWeights = overBuilding := by decide +kernel

theorem exec_binit (s : State) : exec .binit s = .next (loadQueue s) := rfl

theorem witness_BuildIsBinitThenFinish :
    (∃ t u, exec .binit abWeights = .next t ∧ exec .finish t = .next u ∧ u.tstate ≠ .tBuilding) ∧
    ∃ t u, exec .binit overWeights = .next t ∧ exec .finish t = .next u ∧ u.tstate = .tBuilding :=
  ⟨⟨abBuilding, abTree, (exec_binit _).trans (congrArg _ test_binit), (eq_next_after (by decide)).trans (congrArg _ (by decide +kernel)), by decide⟩,
   ⟨overBuilding, after (exec .finish overBuilding), (exec_binit _).trans (congrArg _ overBuilding_loaded), eq_next_after (by decide), by decide⟩⟩

theorem witness_BuildDependsOnTheTotalWeight :
    (participants State.reset.weight = [] ∧ totalWeight State.reset.weight < 2 ^ 32) ∧
    (participants fullWeights.weight ≠ [] ∧ totalWeight fullWeights.weight < 2 ^ 32) ∧ 2 ^ 32 ≤ totalWeight overWeights.weight := by
  decide +kernel

theorem build_abWeights : exec .build abWeights = .next abTree := by
  have h : finishTree (encode .build) abBuilding = .next abTree :=
    (eq_next_after (by decide)).trans (congrArg _ (by decide +kernel))
  exact (congrArg (finishTree (encode .build)) test_binit).trans h

theorem abTree_code : IsCode abTree.node 2 0x61#8 [true] := ⟨0, 3#32, rfl, .inr ⟨by decide, .step rfl (.here 0)⟩⟩

theorem gentab_abTree : exec .gentab abTree = .next abTable := execGentab_ready (s := abTree) rfl rfl

theorem witness_BuildSeesOnlyTheWeights :
    ∃ s s' t t' : State, s ≠ s' ∧ s.weight = s'.weight ∧ exec .build s = .next t ∧ exec .build s' = .next t' := by
  obtain ⟨t, ht, _⟩ := finishTree_inv (encode .build) (loadQueue_inv (s := abTable) (by decide))
  exact ⟨abWeights, abTable, abTree, t, fun h => absurd (congrArg State.nleaves h) (by decide), rfl, build_abWeights, ht⟩

theorem witness_BuiltCodeIsOptimal :
    2 ≤ (participants abWeights.weight).length ∧ totalWeight abWeights.weight < 2 ^ 32 ∧
    exec .build abWeights = .next abTree ∧ exec .gentab abTree = .next abTable ∧
    (∀ x ∈ participants abWeights.weight, ∀ y ∈ participants abWeights.weight, x ≠ y → ¬ abTable.codeOf x <+: abTable.codeOf y) :=
  ⟨by decide +kernel, by decide +kernel, build_abWeights, gentab_abTree, by decide +kernel⟩

theorem witness_GentabFillsTheTable :
    (abTree.Inv ∧ abTree.tstate = .tReady 2 2 ∧ IsCode abTree.node 2 0x61#8 [true]) ∧ emptyTree.tstate = .tEmpty ∧
    State.reset.tstate = .tNone ∧ abBuilding.tstate = .tBuilding :=
  ⟨⟨abTree_inv, rfl, abTree_code⟩, rfl, rfl, rfl⟩

theorem witness_CodesArePrefixFree :
    abTable.Inv ∧ abTable.tableValid = true ∧ abTable.codeLen 0x61#8 ≠ 0 ∧ abTable.codeLen 0x62#8 ≠ 0 :=
  ⟨abTable_inv, rfl, by decide +kernel, by decide +kernel⟩

theorem witness_CodeLengthsAreBounded :
    (abTable.Inv ∧ abTable.codeLen 0x61#8 ≠ 0 ∧ 2 ≤ abTable.nleaves) ∧ (zTable.Inv ∧ zTable.codeLen 0x7A#8 ≠ 0 ∧ zTable.nleaves = 1) :=
  ⟨⟨abTable_inv, by decide +kernel, by decide⟩, ⟨zTable_inv, by decide +kernel, rfl⟩⟩

theorem witness_KraftSumIsExact :
    (abTable.Inv ∧ abTable.tableValid = true ∧ abTable.tstate = .tReady 2 2 ∧ abTable.nleaves ≠ 1) ∧
    (zTable.Inv ∧ zTable.tableValid = true ∧ zTable.tstate = .tReady 0 0 ∧ zTable.nleaves = 1) :=
  ⟨⟨abTable_inv, rfl, rfl, by decide⟩, ⟨zTable_inv, rfl, rfl, rfl⟩⟩

theorem witness_EncEmitsTheCode : abTable.codeLen 0x61#8 ≠ 0 ∧ 0 < abTable.codeLen 0x61#8 ∧ abTable.codeLen 0x63#8 = 0 := by decide +kernel

theorem witness_EncodedLengthIsTheSum :
    ∃ t, abTable.errCode = 0#4 ∧ runWords ([0x61#8, 0x62#8].map fun x => encode (.enc x)) abTable = .next t ∧ t.errCode = 0#4 :=
  ⟨_, rfl, eq_next_after (by decide +kernel), by decide +kernel⟩

theorem witness_DstartPutsTheCursorAtTheRoot :
    abcMid.tstate = .tReady 4 3 ∧ emptyTree.tstate = .tEmpty ∧ State.reset.tstate = .tNone ∧ abBuilding.tstate = .tBuilding := ⟨rfl, rfl, rfl, rfl⟩

theorem witness_DecWalksTheTree :
    (∀ r c, emptyTree.tstate ≠ .tReady r c) ∧ (abTree.tstate = .tReady 2 2 ∧ 0x32#8 ≠ 0x30#8 ∧ 0x32#8 ≠ 0x31#8) ∧
    (zTree.Inv ∧ zTree.tstate = .tReady 0 0 ∧ zTree.node[0]? = some (.leaf 0x7A#8 4#32)) ∧
    (abcMid.Inv ∧ abcMid.tstate = .tReady 4 3 ∧ abcMid.node[4]? = some (.internal 4#32 2 3)) :=
  ⟨fun _ _ h => (by cases h), by decide, ⟨zTree_inv, rfl, rfl⟩, ⟨abcMid_inv, rfl, rfl⟩⟩

theorem witness_DendMarksACompleteDecode :
    abTree.tstate = .tReady 2 2 ∧ (abcMid.tstate = .tReady 4 3 ∧ (3 : Nat) ≠ 4) ∧ emptyTree.tstate = .tEmpty ∧
    State.reset.tstate = .tNone ∧ abBuilding.tstate = .tBuilding := ⟨rfl, ⟨rfl, by decide⟩, rfl, rfl, rfl⟩

theorem witness_DecodingACodeGivesItsSymbol :
    ∃ t, abTable.Inv ∧ abTable.tstate = .tReady 2 2 ∧ abTable.tableValid = true ∧ abTable.errCode = 0#4 ∧ abTable.codeLen 0x61#8 ≠ 0 ∧
      exec (.enc 0x61#8) abTable = .next t ∧ t.out = abTable.out ++ [0x31#8] :=
  ⟨_, abTable_inv, rfl, rfl, rfl, by decide +kernel, eq_next_after (by decide +kernel), by decide +kernel⟩

/-- The weights of vector T1 are the counts of "aaab" (P1). -/
theorem witness_EncodeThenDecodeGivesTheInput :
    abWeights.errCode = 0#4 ∧ [0x61#8, 0x61#8, 0x61#8, 0x62#8].length ≤ 2 ^ 32 - 1 ∧
    ∀ x, (abWeights.weightOf x).toNat = [0x61#8, 0x61#8, 0x61#8, 0x62#8].count x := by
  refine ⟨rfl, by decide, fun x => ?_⟩
  have h : ∀ x ∈ symbols, (abWeights.weightOf x).toNat = [0x61#8, 0x61#8, 0x61#8, 0x62#8].count x := by decide +kernel
  exact h x (mem_symbols x)

theorem witness_ErrorsArePrecise :
    (∃ t, State.reset.errCode = 0#4 ∧ perform 0x51320000#32 State.reset = .next t ∧ t.errCode ≠ 0#4) ∧
    ∃ t, overBuilding.errCode = 0#4 ∧ perform (encode .finish) overBuilding = .next t ∧ t.errCode ≠ 0#4 :=
  ⟨⟨_, rfl, eq_next_after (by decide), by decide⟩, ⟨_, rfl, eq_next_after (by decide), by decide⟩⟩

theorem witness_ErrorsDoNotNest :
    ∃ t, (failed.withPending 0x02000000#32).errCode ≠ 0#4 ∧ step (failed.withPending 0x02000000#32) = .next t :=
  ⟨_, by decide, eq_next_after (by decide)⟩

theorem witness_EachStateElementHasItsWriters :
    (∃ t, exec (.wsetl 0x61#8 3#16) State.reset = .next t ∧ t.weight ≠ State.reset.weight) ∧
    (∃ t, exec .gentab abTree = .next t ∧ abTree.tableValid = false ∧ t.tableValid = true) ∧
    (∃ t, exec .srst abTable = .next t ∧ abTable.tableValid = true ∧ t.tableValid = false) ∧
    (∃ t, exec .dend abTree = .next t ∧ abTree.decDone = false ∧ t.decDone = true) ∧
    (∃ t, exec .dstart { emptyTree with decDone := true } = .next t ∧ t.decDone = false) ∧
    (∃ t, exec (.dec 0x30#8) zTree = .next t ∧ t.out ≠ zTree.out) ∧
    (∃ t, exec .merge abBuilding = .next t ∧ t.node ≠ abBuilding.node ∧ t.pq ≠ abBuilding.pq) ∧
    (∃ t, exec .srst abTable = .next t ∧ t.nleaves ≠ abTable.nleaves ∧ t.root ≠ abTable.root ∧ t.code ≠ abTable.code) ∧
    (∃ t, exec .dstart abcMid = .next t ∧ t.cursor ≠ abcMid.cursor) ∧
    (∃ t, exec .eclr failed = .next t ∧ failed.errCode ≠ 0#4 ∧ t.errCode = 0#4) ∧
    (∃ t, exec .merge State.reset = .next t ∧ t.errCode ≠ State.reset.errCode) :=
  ⟨⟨_, rfl, by decide +kernel⟩, ⟨_, gentab_abTree, rfl, rfl⟩, ⟨_, rfl, rfl, rfl⟩, ⟨_, rfl, rfl, rfl⟩, ⟨_, rfl, rfl⟩,
   ⟨_, rfl, by decide⟩, ⟨_, eq_next_after (by decide), by decide, by decide⟩,
   ⟨_, rfl, by decide, by decide, by decide +kernel⟩, ⟨_, rfl, by decide⟩, ⟨_, rfl, by decide, rfl⟩,
   ⟨_, eq_next_after (by decide), by decide⟩⟩

theorem witness_OutputOnlyGrows :
    ∃ t, step (zTree.withPending 0x51300000#32) = .next t ∧ t.out ≠ [] := ⟨_, eq_next_after (by decide), by decide⟩

theorem witness_EveryStepKeepsTheInvariant : ∃ t, abTree.Inv ∧ step (abTree.withPending 0x52000000#32) = .next t :=
  ⟨_, abTree_inv, eq_next_after (by decide)⟩

theorem witness_NoReachableStepFaults : abcMid.Inv ∧ abTable.Inv := ⟨abcMid_inv, abTable_inv⟩

theorem witness_CapacitiesAreNeverExceeded :
    (emptyTree.Inv ∧ emptyTree.nleaves = 0) ∧ (abcTree.Inv ∧ 0 < abcTree.nleaves) :=
  ⟨⟨emptyTree_inv, rfl⟩, ⟨abcTree_inv, by decide⟩⟩

theorem witness_ScriptPerformsTheWordsInOrder :
    ∃ s t : State, s.pending = none ∧ s.host = commandScript [0x11610003#32, 0x23000000#32] ∧
      runWords [0x11610003#32, 0x23000000#32] { s with host := [] } = .next t :=
  ⟨{ State.reset with host := commandScript [0x11610003#32, 0x23000000#32] }, _, rfl, rfl, eq_next_after (by decide +kernel)⟩

end Sys2Proof.Tests
end

section
/-! PROOF. The invariant over every step (10_state.md R26, R27, R30 to R32; 41_tree.md R148, R149): each command keeps it,
and with it no command faults. -/

namespace Sys2Proof.Machine

/-! ### The invariant over the updates that commands make -/

theorem reset_inv : State.reset.Inv where
  arena := Forest.empty
  sorted := List.Pairwise.nil
  phase := ⟨fun _ => rfl, fun _ _ h => by cases h⟩
  cursorPlace := fun _ _ h => by cases h
  donePlace := fun h => by cases h
  noTable := fun _ => rfl
  validTable := fun h => by cases h
  errRecord := by decide

/-- SRST's state, and the block's state after the reset input: only the output and the host's side remain. -/
theorem clearBlock_inv (s : State) : s.clearBlock.Inv := reset_inv.withHost _ _ _ _ _

theorem State.Inv.clearError {s : State} (h : s.Inv) : s.clearError.Inv :=
  ⟨h.arena, h.sorted, h.phase, h.cursorPlace, h.donePlace, h.noTable, h.validTable,
    (by decide : 0#4 ≤ 8#4), fun _ => ⟨rfl, rfl⟩⟩

theorem State.Inv.emit {s : State} (h : s.Inv) (bytes : List Byte) : (s.emit bytes).Inv := h.withHost _ _ _ _ _

/-- `dec_done` may be set where the tree is EMPTY or the cursor is at the root, and cleared anywhere (R31). -/
theorem State.Inv.withDecDone {s : State} (h : s.Inv) (d : Bool)
    (hd : d = true → s.tstate = .tEmpty ∨ ∃ r, s.tstate = .tReady r r) : ({ s with decDone := d } : State).Inv :=
  ⟨h.arena, h.sorted, h.phase, h.cursorPlace, hd, h.noTable, h.validTable, h.errRecord⟩

/-- GENTAB's update: the table becomes valid as the table of the current tree (R30, R181). -/
theorem State.Inv.withTable {s : State} (h : s.Inv) {t : ByteTable (List Bool)}
    (ht : (s.tstate = .tEmpty ∧ t = emptyTable) ∨ ∃ r c, s.tstate = .tReady r c ∧ treeTable s.node r = .ok t) :
    ({ s with code := t, tableValid := true } : State).Inv :=
  ⟨h.arena, h.sorted, h.phase, h.cursorPlace, h.donePlace, (nomatch ·), fun _ => ht, h.errRecord⟩

/-! ### Each command keeps the invariant -/

/-- The command answers a next state, and that state satisfies the invariant. -/
def Keeps (o : Outcome) : Prop := ∃ t, o = .next t ∧ t.Inv

theorem execBuild_keeps {s : State} (h : s.Inv) : Keeps (execBuild s) :=
  finishTree_inv (encode .build) (loadQueue_inv h.errRecord)

theorem execMerge_keeps {s : State} (h : s.Inv) : Keeps (execMerge s) := by
  unfold execMerge
  cases hm : mergeOne s with
  | error e => exact ⟨_, rfl, h.record e _⟩
  | ok t =>
    obtain ⟨a, b, rest, hq, hlt, rfl⟩ := mergeOne_ok hm
    have ht : s.tstate = .tBuilding := by
      by_contra hne
      simp [Inv_pq_nil h hne] at hq
    obtain ⟨hb, hsum⟩ := (Inv_building h ht).merged hq hlt
    have hne : (mergedState s a b rest).pq ≠ [] := List.ne_nil_of_length_pos (by simp [mergedState])
    exact ⟨_, rfl, Inv_of_mergedInto h ht ⟨hb, hsum, List.prefix_append _ _, rfl, fun _ => hne⟩⟩

theorem execGentab_keeps {s : State} (h : s.Inv) : Keeps (execGentab s) := by
  cases hs : s.tstate with
  | tReady r c =>
    obtain ⟨t, ht, -⟩ := treeTable_spec (ready_arena h hs)
    exact ⟨_, execGentab_ready hs ht, h.withTable (.inr ⟨r, c, hs, ht⟩)⟩
  | tEmpty => exact ⟨_, execGentab_empty hs, h.withTable (.inl ⟨hs, rfl⟩)⟩
  | tNone | tBuilding => exact ⟨_, execGentab_unbuilt (by simp [hs, TreeState.unbuilt]), h.record _ _⟩

theorem execEnc_keeps {s : State} (h : s.Inv) (x : Byte) : Keeps (execEnc x s) := by
  by_cases hx : s.codeLen x = 0
  · exact ⟨_, execEnc_unknown hx, h.record _ _⟩
  · exact ⟨_, execEnc_entry hx, h.emit _⟩

theorem execDstart_keeps {s : State} (h : s.Inv) : Keeps (execDstart s) := by
  cases hs : s.tstate with
  | tReady r c => exact ⟨_, execDstart_ready hs, h.moveCursor hs (.inl rfl) false s.out (fun _ => rfl)⟩
  | tEmpty => exact ⟨_, execDstart_empty hs, h.withDecDone false (by simp)⟩
  | tNone | tBuilding => exact ⟨_, execDstart_unbuilt (by simp [hs, TreeState.unbuilt]), h.record _ _⟩

/-- The walk stays on the tree: the cursor goes to the root or to an internal node (R221). -/
theorem walkBit_keeps {s : State} {r c : Nat} (h : s.Inv) (hs : s.tstate = .tReady r c) (b : Bool) :
    Keeps (walkBit b r c { s with decDone := false }) := by
  have hd : ({ s with decDone := false } : State).Inv := h.withDecDone false (by simp)
  rcases walkBit_spec b (ready_arena hd hs) (hd.cursorPlace r c hs) with
    ⟨x, w, -, e⟩ | ⟨w, c0, c1, -, ⟨x, w', -, e⟩ | ⟨w', d0, d1, hc, e⟩⟩
  · exact ⟨_, e, hd.emit [x]⟩
  · exact ⟨_, e, h.moveCursor hs (.inl rfl) false _ (fun _ => rfl)⟩
  · exact ⟨_, e, h.moveCursor hs (.inr ⟨w', d0, d1, hc⟩) false s.out (by simp)⟩

theorem execDec_keeps {s : State} (h : s.Inv) (d : Byte) : Keeps (execDec d s) := by
  by_cases hr : ∃ r c, s.tstate = .tReady r c
  · obtain ⟨r, c, hs⟩ := hr
    cases hd : bitOfDigit d with
    | none => exact ⟨_, execDec_invalid hs hd, h.record _ _⟩
    | some b => exact execDec_ready hs hd ▸ walkBit_keeps h hs b
  · exact ⟨_, execDec_noTree (fun r c hs => hr ⟨r, c, hs⟩) d, h.record _ _⟩

theorem execDend_keeps {s : State} (h : s.Inv) : Keeps (execDend s) := by
  cases hs : s.tstate with
  | tReady r c =>
    by_cases hc : c = r
    · subst hc
      exact ⟨_, execDend_root hs, h.withDecDone true (fun _ => .inr ⟨c, hs⟩)⟩
    · exact ⟨_, execDend_mid hs hc, h.record _ _⟩
  | tEmpty => exact ⟨_, execDend_empty hs, h.withDecDone true (fun _ => .inl hs)⟩
  | tNone | tBuilding => exact ⟨_, execDend_unbuilt (by simp [hs, TreeState.unbuilt]), h.record _ _⟩

/-- Under the invariant every command answers a next state, which satisfies it again. -/
theorem exec_keeps {s : State} (h : s.Inv) (i : Instr) : Keeps (exec i s) := by
  cases i with
  | wclr | wsetl | wseth => exact ⟨_, rfl, h.withWeight _⟩
  | binit => exact ⟨_, rfl, loadQueue_inv h.errRecord⟩
  | merge => exact execMerge_keeps h
  | finish => exact finishTree_inv _ h
  | build => exact execBuild_keeps h
  | gentab => exact execGentab_keeps h
  | enc x => exact execEnc_keeps h x
  | dstart => exact execDstart_keeps h
  | dec d => exact execDec_keeps h d
  | dend => exact execDend_keeps h
  | nop => exact ⟨_, rfl, h⟩
  | srst => exact ⟨_, rfl, clearBlock_inv s⟩
  | eclr => exact ⟨_, rfl, h.clearError⟩

/-! ### Every step keeps the invariant -/

/-- All that performing a word can do: discard it behind a pending error (R273), raise IllegalCommand (R98), or perform the
command it decodes to (R97). -/
theorem perform_cases (w : Word) (s : State) :
    perform w s = .next s ∨ (∃ e, decode w = .error e ∧ perform w s = .next (s.recordError .illegalCommand w)) ∨
      ∃ i, decode w = .ok i ∧ perform w s = exec i s := by
  unfold perform
  split
  · exact .inl rfl
  · cases hd : decode w with
    | error e => exact .inr (.inl ⟨e, rfl, rfl⟩)
    | ok i => exact .inr (.inr ⟨i, rfl, rfl⟩)

theorem perform_keeps {s : State} (h : s.Inv) (w : Word) : Keeps (perform w s) := by
  rcases perform_cases w s with e | ⟨_, -, e⟩ | ⟨i, -, e⟩
  · exact ⟨s, e, h⟩
  · exact ⟨_, e, h.record _ _⟩
  · exact e ▸ exec_keeps h i

theorem hardReset_inv (s : State) : (hardReset s).Inv := by
  unfold hardReset
  cases s.pending with
  | none => exact clearBlock_inv s
  | some w => exact (clearBlock_inv s).withHost _ _ _ _ _

theorem hostWrite_inv {s : State} (h : s.Inv) (off : Offset) (data : Word) : (hostWrite off data s).Inv := by
  unfold hostWrite
  split
  · exact h.withHost _ _ _ _ _
  · exact h

theorem hostRead_inv {s : State} (h : s.Inv) (off : Offset) : (hostRead off s).Inv := by
  unfold hostRead
  split
  · exact h.withHost _ _ _ _ _
  · exact h.withHost _ _ _ _ _

/-- All that an act of the host can do. -/
theorem hostAct_cases (a : HostAct) (s : State) :
    hostAct a s = .refused .accessNotAdmitted ∨ hostAct a s = .next (hardReset s) ∨
      (∃ off data, hostAct a s = .next (hostWrite off data s)) ∨ ∃ off, hostAct a s = .next (hostRead off s) := by
  cases a with
  | write width off data =>
    by_cases ha : admitted width off
    · exact .inr (.inr (.inl ⟨off, data, if_pos ha⟩))
    · exact .inl (if_neg ha)
  | read width off =>
    by_cases ha : admitted width off
    · exact .inr (.inr (.inr ⟨off, if_pos ha⟩))
    · exact .inl (if_neg ha)
  | reset => exact .inr (.inl rfl)

theorem hostAct_keeps {s : State} (h : s.Inv) (a : HostAct) :
    Keeps (hostAct a s) ∨ hostAct a s = .refused .accessNotAdmitted := by
  rcases hostAct_cases a s with e | e | ⟨off, data, e⟩ | ⟨off, e⟩
  · exact .inr e
  · exact .inl ⟨_, e, hardReset_inv s⟩
  · exact .inl ⟨_, e, hostWrite_inv h off data⟩
  · exact .inl ⟨_, e, hostRead_inv h off⟩

theorem blockTurn_keeps {s : State} (h : s.Inv) : Keeps (blockTurn s) := by
  unfold blockTurn
  cases s.pending with
  | none => exact ⟨s, rfl, h⟩
  | some w => exact perform_keeps (h.withHost none s.out s.host s.replies s.draws) w

/-- Under the invariant a step answers a next state, which satisfies it again, or refuses a host access (R65). -/
theorem step_keeps {s : State} (h : s.Inv) : Keeps (step s) ∨ step s = .refused .accessNotAdmitted := by
  unfold step
  cases s.hostTurn with
  | none => exact .inl (blockTurn_keeps h)
  | some turn => exact hostAct_keeps (h.withHost s.pending s.out turn.2 s.replies s.draws) turn.1

/-- Settles O51: every clause of the invariant speaks of the empty block. -/
theorem invariantHoldsAtReset : Obligations.InvariantHoldsAtReset := reset_inv

/-- Settles O52, by the cases of a step: an act of the host, or a command word of the block. -/
theorem everyStepKeepsTheInvariant : Obligations.EveryStepKeepsTheInvariant := by
  unfold Obligations.EveryStepKeepsTheInvariant
  intro s t h e
  rcases step_keeps h with ⟨t', e', h'⟩ | e'
  · rw [e] at e'
    cases e'
    exact h'
  · rw [e] at e'
    cases e'

/-- Settles O53: the commands' faults need a broken arena or a cursor on a leaf, which the invariant excludes. -/
theorem noReachableStepFaults : Obligations.NoReachableStepFaults := by
  unfold Obligations.NoReachableStepFaults
  refine ⟨fun s i h => ?_, fun s h => ?_⟩
  · obtain ⟨t, e, -⟩ := exec_keeps h i
    exact ⟨t, e⟩
  · rcases step_keeps h with ⟨t, e, -⟩ | e
    · exact .inl ⟨t, e⟩
    · exact .inr e

end Sys2Proof.Machine
end

section
/-! PROOF. What each command can change (10_state.md R23 to R35, R48), in every state: one inversion lemma for `exec`, and
the writers of each element read off it. -/

namespace Sys2Proof.Machine

@[simp] theorem HufError.code_ne_zero (e : HufError) : e.code ≠ 0#4 := by cases e <;> decide

@[simp] theorem State.emit_nil (s : State) : s.emit [] = s := by simp [State.emit]

/-! ### All that a command can do -/

/-- The commands that raise an error of their own (R271). -/
def canRaise : Instr → Bool
  | .merge | .finish | .build | .gentab | .dstart | .dend | .enc _ | .dec _ => true
  | .wclr | .wsetl _ _ | .wseth _ _ | .binit | .nop | .srst | .eclr => false

/-- The state after BINIT's pseudocode (R144) with this arena and queue. -/
@[simp] def State.loaded (s : State) (node : List Node) (pq : List Nat) (nleaves : Nat) : State :=
  { s with node := node, pq := pq, nleaves := nleaves, tstate := .tBuilding, decDone := false, code := emptyTable,
           tableValid := false }

/-- `Effect s i t`: command `i` can take state `s` to state `t`, with the new contents of the elements it writes left free. -/
inductive Effect (s : State) : Instr → State → Prop where
  | wclr : Effect s .wclr { s with weight := zeroWeights }
  | wsetl x imm v : Effect s (.wsetl x imm) (s.setWeight x v)
  | wseth x imm v : Effect s (.wseth x imm) (s.setWeight x v)
  | binit node pq n : Effect s .binit (s.loaded node pq n)
  | merge node pq : Effect s .merge { s with node := node, pq := pq }
  | finish node pq ts : Effect s .finish { s with node := node, pq := pq, tstate := ts }
  /-- FINISH stopped by an overflow keeps its earlier merges (R275). -/
  | finishOverflow node pq :
    Effect s .finish (({ s with node := node, pq := pq } : State).recordError .weightOverflow (encode .finish))
  | build node pq n ts : Effect s .build { s.loaded node pq n with tstate := ts }
  /-- BUILD stopped by an overflow keeps its BINIT part and its earlier merges (R275). -/
  | buildOverflow node pq n : Effect s .build ((s.loaded node pq n).recordError .weightOverflow (encode .build))
  | gentab table : Effect s .gentab { s with code := table, tableValid := true }
  | enc x bytes : Effect s (.enc x) (s.emit bytes)
  | dstartReady r c : s.tstate = .tReady r c → Effect s .dstart { s with tstate := .tReady r r, decDone := false }
  | dstartEmpty : Effect s .dstart { s with decDone := false }
  | dec d r c c' bytes : s.tstate = .tReady r c →
    Effect s (.dec d) (({ s with tstate := .tReady r c', decDone := false } : State).emit bytes)
  | dend : Effect s .dend { s with decDone := true }
  | nop : Effect s .nop s
  | srst : Effect s .srst s.clearBlock
  | eclr : Effect s .eclr s.clearError
  | raises {i : Instr} (e : HufError) : canRaise i = true → Effect s i (s.recordError e (encode i))

theorem loadQueue_loaded (s : State) : ∃ node pq n, loadQueue s = s.loaded node pq n := ⟨_, _, _, loadQueue_frame s⟩

theorem execBinit_effect {s t : State} (h : execBinit s = .next t) : Effect s .binit t := by
  obtain ⟨node, pq, n, hl⟩ := loadQueue_loaded s
  rw [execBinit, hl] at h
  cases h
  exact .binit node pq n

theorem execMerge_effect {s t : State} (h : execMerge s = .next t) : Effect s .merge t := by
  unfold execMerge at h
  cases hm : mergeOne s with
  | error e =>
    rw [hm] at h
    cases h
    exact .raises e rfl
  | ok u =>
    rw [hm] at h
    cases h
    obtain ⟨a, b, rest, -, -, rfl⟩ := mergeOne_ok hm
    exact .merge _ _

theorem execFinish_effect {s t : State} (h : execFinish s = .next t) : Effect s .finish t := by
  unfold execFinish at h
  rcases finishTree_frame (encode .finish) s with ⟨e, -⟩ | ⟨-, u, hu, e | e | ⟨r, q, -, e⟩⟩
  all_goals rw [e] at h; cases h
  · exact .raises _ rfl
  · rw [hu]; exact .finishOverflow _ _
  · rw [hu]; exact .finish _ _ _
  · rw [hu]; exact .finish _ _ _

theorem execBuild_effect {s t : State} (h : execBuild s = .next t) : Effect s .build t := by
  obtain ⟨node, pq, n, hl⟩ := loadQueue_loaded s
  unfold execBuild at h
  rw [hl] at h
  rcases finishTree_frame (encode .build) (s.loaded node pq n) with ⟨-, hne⟩ | ⟨-, u, hu, e | e | ⟨r, q, -, e⟩⟩
  · exact absurd rfl hne
  all_goals rw [e] at h; cases h
  · rw [hu]; exact .buildOverflow _ _ _
  · rw [hu]; exact .build u.node u.pq n .tEmpty
  · rw [hu]; exact .build u.node q n (.tReady r r)

theorem execGentab_effect {s t : State} (h : execGentab s = .next t) : Effect s .gentab t := by
  unfold execGentab at h
  split at h
  · split at h
    · cases h; exact .gentab _
    · cases h
  · cases h; exact .gentab _
  · cases h; exact .raises _ rfl
  · cases h; exact .raises _ rfl

theorem execEnc_effect {s t : State} {x : Byte} (h : execEnc x s = .next t) : Effect s (.enc x) t := by
  unfold execEnc at h
  split at h
  · cases h; exact .raises _ rfl
  · cases h; exact .enc _ _

theorem execDstart_effect {s t : State} (h : execDstart s = .next t) : Effect s .dstart t := by
  unfold execDstart at h
  split at h
  · cases h; exact .dstartReady _ _ ‹_›
  · cases h; exact .dstartEmpty
  · cases h; exact .raises _ rfl
  · cases h; exact .raises _ rfl

/-- All that the walk of DEC can do: emit bytes and move the cursor. -/
theorem walkBit_next {b : Bool} {r c : Nat} {s t : State} (hs : s.tstate = .tReady r c) (h : walkBit b r c s = .next t) :
    ∃ c' bytes, t = ({ s with tstate := .tReady r c' } : State).emit bytes := by
  unfold walkBit at h
  split at h
  · cases h
  · cases h; exact ⟨c, _, by rw [← hs]⟩
  · split at h
    · cases h
    · cases h
    · split at h
      · cases h
      · cases h; exact ⟨r, _, rfl⟩
      · cases h; exact ⟨_, [], (State.emit_nil _).symm⟩

theorem execDec_effect {s t : State} {d : Byte} (h : execDec d s = .next t) : Effect s (.dec d) t := by
  unfold execDec at h
  split at h
  · next r c hs =>
    split at h
    · cases h; exact .raises _ rfl
    · obtain ⟨c', bytes, rfl⟩ := walkBit_next (s := { s with decDone := false }) hs h
      exact .dec d r c c' bytes hs
  all_goals cases h; exact .raises _ rfl

theorem execDend_effect {s t : State} (h : execDend s = .next t) : Effect s .dend t := by
  unfold execDend at h
  split at h
  · split at h
    · cases h; exact .dend
    · cases h; exact .raises _ rfl
  · cases h; exact .dend
  · cases h; exact .raises _ rfl
  · cases h; exact .raises _ rfl

/-- A command that answers a next state has one of its effects. -/
theorem exec_effect {i : Instr} {s t : State} (h : exec i s = .next t) : Effect s i t := by
  cases i with
  | wclr => cases h; exact .wclr
  | wsetl x imm => cases h; exact .wsetl x imm _
  | wseth x imm => cases h; exact .wseth x imm _
  | binit => exact execBinit_effect h
  | merge => exact execMerge_effect h
  | finish => exact execFinish_effect h
  | build => exact execBuild_effect h
  | gentab => exact execGentab_effect h
  | enc x => exact execEnc_effect h
  | dstart => exact execDstart_effect h
  | dec d => exact execDec_effect h
  | dend => exact execDend_effect h
  | nop => cases h; exact .nop
  | srst => cases h; exact .srst
  | eclr => cases h; exact .eclr

/-! ### The writers of each element -/

namespace Effect

variable {s t : State} {i : Instr}

theorem weight_writers (h : Effect s i t) (hw : t.weight ≠ s.weight) :
    i = .wclr ∨ (∃ x v, i = .wsetl x v) ∨ (∃ x v, i = .wseth x v) ∨ i = .srst := by
  cases h <;> simp at hw ⊢

theorem arena_writers (h : Effect s i t) (hw : t.node ≠ s.node ∨ t.pq ≠ s.pq) :
    i ∈ [.binit, .merge, .finish, .build, .srst] := by
  cases h <;> simp at hw ⊢

theorem nleaves_writers (h : Effect s i t) (hw : t.nleaves ≠ s.nleaves) : i ∈ [.binit, .build, .srst] := by
  cases h <;> simp at hw ⊢

/-- DSTART and DEC need a READY tree to move its cursor, and keep its root. -/
theorem phase_writers (h : Effect s i t) (hw : t.tstate.bits ≠ s.tstate.bits ∨ t.root ≠ s.root) :
    i ∈ [.binit, .finish, .build, .srst] := by
  cases h <;> simp_all [State.root, TreeState.bits]

theorem cursor_writers (h : Effect s i t) (hw : t.cursor ≠ s.cursor) :
    i ∈ [.binit, .finish, .build, .srst, .dstart] ∨ ∃ d, i = .dec d := by
  cases h <;> simp [State.cursor] at hw ⊢

theorem code_writers (h : Effect s i t) (hw : t.code ≠ s.code) : i ∈ [.gentab, .binit, .build, .srst] := by
  cases h <;> simp at hw ⊢

theorem tableValid_setters (h : Effect s i t) (hs : s.tableValid = false) (ht : t.tableValid = true) : i = .gentab := by
  cases h <;> simp_all [State.reset]

theorem tableValid_clearers (h : Effect s i t) (hs : s.tableValid = true) (ht : t.tableValid = false) :
    i = .binit ∨ i = .build ∨ i = .srst := by
  cases h <;> simp_all

theorem decDone_setters (h : Effect s i t) (hs : s.decDone = false) (ht : t.decDone = true) : i = .dend := by
  cases h <;> simp_all [State.reset]

theorem decDone_clearers (h : Effect s i t) (hs : s.decDone = true) (ht : t.decDone = false) :
    i = .dstart ∨ (∃ d, i = .dec d) ∨ i = .binit ∨ i = .build ∨ i = .srst := by
  cases h <;> simp_all

/-- An error record of a command's own: its code is not 0, and its fields are those of the command's word (R272). -/
theorem error_writers (h : Effect s i t)
    (hw : ¬(t.errCode = s.errCode ∧ t.errOpc = s.errOpc ∧ t.errByte = s.errByte)) :
    (i ∈ [.eclr, .srst] ∧ t.errCode = 0#4 ∧ t.errOpc = 0#8 ∧ t.errByte = 0#8) ∨
    (canRaise i = true ∧ t.errCode ≠ 0#4 ∧ t.errOpc = opcField (encode i) ∧ t.errByte = byteField (encode i)) := by
  cases h with
  | srst | eclr => exact .inl ⟨by simp, rfl, rfl, rfl⟩
  | raises e hi => exact .inr ⟨hi, e.code_ne_zero, rfl, rfl⟩
  | finishOverflow | buildOverflow => exact .inr ⟨rfl, HufError.weightOverflow.code_ne_zero, rfl, rfl⟩
  | _ => exact absurd ⟨rfl, rfl, rfl⟩ hw

theorem out_writers (h : Effect s i t) (hw : t.out ≠ s.out) : (∃ x, i = .enc x) ∨ ∃ d, i = .dec d := by
  cases h <;> simp at hw ⊢

theorem out_prefix (h : Effect s i t) : s.out <+: t.out := by
  cases h with
  | enc x bytes | dec d r c c' bytes => exact List.prefix_append _ _
  | _ => exact List.prefix_refl _

theorem host_frame (h : Effect s i t) :
    t.pending = s.pending ∧ t.host = s.host ∧ t.replies = s.replies ∧ t.draws = s.draws := by
  cases h <;> exact ⟨rfl, rfl, rfl, rfl⟩

end Effect

theorem canRaise_iff (i : Instr) : canRaise i = true ↔
    i ∈ [.merge, .finish, .build, .gentab, .dstart, .dend] ∨ (∃ x, i = .enc x) ∨ ∃ d, i = .dec d := by
  cases i <;> simp [canRaise]

/-- Settles O49, from the effects that each command can have. -/
theorem eachStateElementHasItsWriters : Obligations.EachStateElementHasItsWriters := by
  unfold Obligations.EachStateElementHasItsWriters
  intro i s t he
  have h := exec_effect he
  exact ⟨h.weight_writers, fun hw => h.arena_writers (.inl hw), h.nleaves_writers, fun hw => h.arena_writers (.inr hw),
    h.phase_writers, h.cursor_writers, h.code_writers, h.tableValid_setters, h.tableValid_clearers, h.decDone_setters,
    h.decDone_clearers, 
    fun hw => (h.error_writers hw).imp_right fun ⟨hi, hr⟩ => ⟨(canRaise_iff i).1 hi, hr⟩, h.out_writers, h.host_frame⟩

/-! ### The output stream -/

theorem perform_out_prefix {w : Word} {s t : State} (h : perform w s = .next t) : s.out <+: t.out := by
  rcases perform_cases w s with e | ⟨_, -, e⟩ | ⟨i, -, e⟩
  · rw [e] at h; cases h; exact List.prefix_refl _
  · rw [e] at h; cases h; exact List.prefix_refl _
  · rw [e] at h; exact (exec_effect h).out_prefix

/-- A hardware reset keeps the stream and adds the bytes of the command it cuts short (R300). -/
theorem hardReset_out_prefix (s : State) : s.out <+: (hardReset s).out := by
  unfold hardReset
  cases s.pending with
  | none => exact List.prefix_refl _
  | some w => exact List.prefix_append _ _

theorem hostWrite_out (off : Offset) (data : Word) (s : State) : (hostWrite off data s).out = s.out := by
  unfold hostWrite
  split <;> rfl

theorem hostRead_out (off : Offset) (s : State) : (hostRead off s).out = s.out := by
  unfold hostRead
  split <;> rfl

theorem hostAct_out_prefix {a : HostAct} {s t : State} (h : hostAct a s = .next t) : s.out <+: t.out := by
  rcases hostAct_cases a s with e | e | ⟨off, data, e⟩ | ⟨off, e⟩
  all_goals rw [e] at h; cases h
  · exact hardReset_out_prefix s
  · rw [hostWrite_out]
  · rw [hostRead_out]

theorem blockTurn_out_prefix {s t : State} (h : blockTurn s = .next t) : s.out <+: t.out := by
  unfold blockTurn at h
  split at h
  · exact perform_out_prefix (s := { s with pending := none }) h
  · cases h; exact List.prefix_refl _

/-- Settles O50, by the cases of a step: an act of the host, or a command word of the block. -/
theorem outputOnlyGrows : Obligations.OutputOnlyGrows := by
  unfold Obligations.OutputOnlyGrows
  intro s t h
  unfold step at h
  split at h
  · next a rest _ => exact hostAct_out_prefix (s := { s with host := rest }) h
  · exact blockTurn_out_prefix h

end Sys2Proof.Machine
end

section
/-! PROOF. The registers show the state (10_state.md section 4, R36 to R46): the fields of each word, and which element a
window's offset reads (20_memory.md R61). -/

namespace Sys2Proof.Machine

/-! ### Which element an offset reads -/

/-- A number that fits an offset or a field is shown whole. -/
theorem toNat_ofNat_of_fits {k n : Nat} (h : n < 2 ^ k) : (BitVec.ofNat k n).toNat = n := Nat.mod_eq_of_lt h

section
variable (s : State)

theorem regRead_weight (x : Byte) : s.regRead (BitVec.ofNat 14 (0x0400 + 4 * x.toNat)) = s.weightOf x := by
  have hx := x.isLt
  simp (disch := omega) only [State.regRead, toNat_ofNat_of_fits, if_pos, if_neg, Nat.add_sub_cancel_left,
    Nat.mul_div_cancel_left, BitVec.ofNat_toNat, BitVec.setWidth_eq]

theorem regRead_nodeW {i : Nat} (hi : i < 512) : s.regRead (BitVec.ofNat 14 (0x0800 + 4 * i)) = wt s.node i := by
  simp (disch := omega) only [State.regRead, toNat_ofNat_of_fits, if_pos, if_neg, Nat.add_sub_cancel_left,
    Nat.mul_div_cancel_left]

theorem regRead_nodeD {i : Nat} (hi : i < 512) : s.regRead (BitVec.ofNat 14 (0x1000 + 4 * i)) = nodeDWord s.node[i]? := by
  simp (disch := omega) only [State.regRead, toNat_ofNat_of_fits, if_pos, if_neg, Nat.add_sub_cancel_left,
    Nat.mul_div_cancel_left]

theorem regRead_pq {i : Nat} (hi : i < 256) : s.regRead (BitVec.ofNat 14 (0x1800 + 4 * i)) = indexWord s.pq[i]? := by
  simp (disch := omega) only [State.regRead, toNat_ofNat_of_fits, if_pos, if_neg, Nat.add_sub_cancel_left,
    Nat.mul_div_cancel_left]

theorem regRead_codeLen (x : Byte) : s.regRead (BitVec.ofNat 14 (0x1C00 + 4 * x.toNat)) = s.codeLenWord x := by
  have hx := x.isLt
  simp (disch := omega) only [State.regRead, toNat_ofNat_of_fits, if_pos, if_neg, Nat.add_sub_cancel_left,
    Nat.mul_div_cancel_left, BitVec.ofNat_toNat, BitVec.setWidth_eq]

theorem regRead_codeBits (x : Byte) {j : Nat} (hj : j < 8) :
    s.regRead (BitVec.ofNat 14 (0x2000 + 32 * x.toNat + 4 * j)) = s.codeBitsWord x j := by
  have hx := x.isLt
  have hsym : (0x2000 + 32 * x.toNat + 4 * j - 0x2000) / 32 = x.toNat := by omega
  have hword : (0x2000 + 32 * x.toNat + 4 * j - 0x2000) % 32 / 4 = j := by omega
  simp (disch := omega) only [State.regRead, toNat_ofNat_of_fits, if_neg, hsym, hword, BitVec.ofNat_toNat, BitVec.setWidth_eq]

end

/-! ### The fields of a word -/

/-- A word that shows a node index (R39, R40, R44): the index in bits 8:0, VALID in bit 31, and 0 between. -/
theorem indexWord_fields {i : Nat} (hi : i < 512) :
    (indexWord (some i)).getLsbD 31 = true ∧ (indexWord (some i)).extractLsb' 9 22 = 0#22 ∧
      ((indexWord (some i)).extractLsb' 0 9).toNat = i := by
  refine ⟨?_, ?_, ?_⟩
  · simp [indexWord, getLsbD_field]
  · simp (disch := decide) only [indexWord, BitVec.extractLsb'_or, extract_field_other, BitVec.or_zero]
  · simp (disch := decide) only [indexWord, BitVec.extractLsb'_or, extract_field_same, extract_field_other, BitVec.or_zero]
    exact toNat_ofNat_of_fits hi

/-- The fields of STATUS (R36). -/
theorem statusWord_fields (s : State) :
    s.statusWord.getLsbD 0 = s.busy ∧ s.statusWord.extractLsb' 1 2 = s.tstate.bits ∧
    s.statusWord.getLsbD 3 = s.tableValid ∧ s.statusWord.getLsbD 4 = s.decDone ∧ s.statusWord.getLsbD 5 = s.atRoot ∧
    s.statusWord.getLsbD 6 = s.err ∧ s.statusWord.extractLsb' 7 9 = 0#9 ∧
    s.statusWord.extractLsb' 16 9 = BitVec.ofNat 9 s.pq.length ∧ s.statusWord.extractLsb' 25 7 = 0#7 := by
  unfold State.statusWord
  refine ⟨?_, ?_, ?_, ?_, ?_, ?_, ?_, ?_, ?_⟩ <;>
    simp (disch := decide) [BitVec.extractLsb'_or, extract_field_same, extract_field_other, getLsbD_field_bit,
      getLsbD_field_outside, -BitVec.getLsbD_eq_getElem]

theorem atRoot_iff (s : State) : s.atRoot = true ↔ ∃ r, s.tstate = .tReady r r := by
  unfold State.atRoot
  split
  · next r c hs =>
    rw [hs, beq_iff_eq]
    exact ⟨fun h => ⟨r, by rw [h]⟩, fun ⟨_, h⟩ => by cases h; rfl⟩
  all_goals simp [*]

/-- The fields of ERRINFO (R37). -/
theorem errInfoWord_fields (s : State) :
    s.errInfoWord.extractLsb' 0 4 = s.errCode ∧ s.errInfoWord.extractLsb' 4 4 = 0#4 ∧
    s.errInfoWord.extractLsb' 8 8 = s.errOpc ∧ s.errInfoWord.extractLsb' 16 8 = s.errByte ∧
    s.errInfoWord.extractLsb' 24 8 = 0#8 := by
  unfold State.errInfoWord
  refine ⟨?_, ?_, ?_, ?_, ?_⟩ <;>
    simp (disch := decide) only [BitVec.extractLsb'_or, extract_field_same, extract_field_other, BitVec.or_zero,
      BitVec.zero_or]

/-- The fields of TREEINFO (R38). -/
theorem treeInfoWord_fields (s : State) :
    s.treeInfoWord.extractLsb' 0 9 = BitVec.ofNat 9 s.nleaves ∧
    s.treeInfoWord.extractLsb' 16 9 = BitVec.ofNat 9 s.node.length ∧
    s.treeInfoWord.extractLsb' 9 7 = 0#7 ∧ s.treeInfoWord.extractLsb' 25 7 = 0#7 := by
  unfold State.treeInfoWord
  refine ⟨?_, ?_, ?_, ?_⟩ <;>
    simp (disch := decide) only [BitVec.extractLsb'_or, extract_field_same, extract_field_other, BitVec.or_zero,
      BitVec.zero_or]

/-- The fields of NODE_D for a leaf (R43). -/
theorem nodeDWord_leaf_fields (x : Byte) (v : Word) :
    (nodeDWord (some (.leaf x v))).getLsbD 31 = true ∧ (nodeDWord (some (.leaf x v))).extractLsb' 9 22 = 0#22 ∧
    ((nodeDWord (some (.leaf x v))).extractLsb' 0 9).toNat = x.toNat := by
  have hx := x.isLt
  refine ⟨?_, ?_, ?_⟩
  · simp [nodeDWord, getLsbD_field]
  · simp (disch := decide) only [nodeDWord, BitVec.extractLsb'_or, extract_field_other, BitVec.or_zero]
  · simp (disch := decide) only [nodeDWord, BitVec.extractLsb'_or, extract_field_same, extract_field_other, BitVec.or_zero]
    rw [BitVec.toNat_setWidth, Nat.mod_eq_of_lt (by omega)]

/-- The fields of NODE_D for an internal node (R43). -/
theorem nodeDWord_internal_fields (v : Word) {c0 c1 : Nat} (h0 : c0 < 512) (h1 : c1 < 512) :
    let d := nodeDWord (some (.internal v c0 c1))
    d.getLsbD 31 = true ∧ d.getLsbD 30 = true ∧ d.extractLsb' 25 5 = 0#5 ∧ (d.extractLsb' 16 9).toNat = c1 ∧
    d.extractLsb' 9 7 = 0#7 ∧ (d.extractLsb' 0 9).toNat = c0 := by
  refine ⟨?_, ?_, ?_, ?_, ?_, ?_⟩
  · simp [nodeDWord, getLsbD_field]
  · simp [nodeDWord, getLsbD_field]
  all_goals simp (disch := decide) only [nodeDWord, BitVec.extractLsb'_or, extract_field_same, extract_field_other,
    BitVec.or_zero, BitVec.zero_or]
  · exact toNat_ofNat_of_fits h1
  · exact toNat_ofNat_of_fits h0

/-- CODE_LEN shows the whole length of a code of at most 255 digits (R45). -/
theorem codeLenWord_toNat (s : State) (x : Byte) (h : s.codeLen x ≤ 255) : (s.codeLenWord x).toNat = s.codeLen x := by
  simp (disch := omega) [State.codeLenWord, field, Nat.mod_eq_of_lt]

/-- Settles O16, from the fields of the word. -/
theorem statusShowsTheFlags : Obligations.StatusShowsTheFlags := by
  unfold Obligations.StatusShowsTheFlags
  intro s hq
  obtain ⟨hbusy, htstate, hvalid, hdone, hroot, herr, hlow, hcount, hhigh⟩ := statusWord_fields s
  have hv : s.regRead 0x0004#14 = s.statusWord := rfl
  rw [hv]
  refine ⟨?_, ?_, hvalid, hdone, ?_, ?_, hlow, ?_, hhigh⟩
  · rw [hbusy, State.busy, Option.isSome_iff_ne_none]
  · rw [htstate]
    cases s.tstate <;> rfl
  · rw [hroot, atRoot_iff]
  · rw [herr, State.err, bne_iff_ne]
  · rw [hcount, toNat_ofNat_of_fits (by omega)]

/-- Settles O17: each word's fields do not overlap. -/
theorem infoRegistersShowTheState : Obligations.InfoRegistersShowTheState := by
  unfold Obligations.InfoRegistersShowTheState
  intro s hnode hleaves hindex
  have he : s.regRead 0x0008#14 = s.errInfoWord := rfl
  have ht : s.regRead 0x000C#14 = s.treeInfoWord := rfl
  have hr : s.regRead 0x0010#14 = s.rootWord := rfl
  have hc : s.regRead 0x0014#14 = s.cursorWord := rfl
  rw [he, ht, hr, hc]
  obtain ⟨hn, ha, hgap, htop⟩ := treeInfoWord_fields s
  refine ⟨errInfoWord_fields s, ⟨?_, hgap, ?_, htop⟩, ?_, ?_⟩
  · rw [hn, toNat_ofNat_of_fits (by omega)]
  · rw [ha, toNat_ofNat_of_fits (by omega)]
  · intro root cursor hs
    obtain ⟨hroot, hcursor⟩ := hindex root cursor hs
    obtain ⟨rv, rgap, rindex⟩ := indexWord_fields (i := root) (by omega)
    obtain ⟨cv, cgap, cindex⟩ := indexWord_fields (i := cursor) (by omega)
    simp only [State.rootWord, State.root, State.cursorWord, State.cursor, hs]
    exact ⟨rindex, rgap, rv, cindex, cgap, cv⟩
  · intro hs
    simp only [State.rootWord, State.root, State.cursorWord, State.cursor]
    split
    · next r c h => exact absurd h (hs r c)
    all_goals exact ⟨rfl, rfl⟩

/-- Settles O18: each window's offset reads the entry of its symbol. -/
theorem tableWindowsShowTheTables : Obligations.TableWindowsShowTheTables := by
  unfold Obligations.TableWindowsShowTheTables
  intro s x
  refine ⟨regRead_weight s x, fun hlen => ⟨?_, fun j t hj ht => ?_⟩⟩
  · rw [regRead_codeLen, codeLenWord_toNat s x hlen]
  · rw [regRead_codeBits s x hj, codeBitsWord_getLsbD s x j ht]

/-- Settles O19: each window's offset reads its node or queue entry. -/
theorem treeWindowsShowTheTree : Obligations.TreeWindowsShowTheTree := by
  unfold Obligations.TreeWindowsShowTheTree
  intro s i hi
  rw [regRead_nodeW s hi, regRead_nodeD s hi]
  refine ⟨fun hn => ?_, fun x v hn => ?_, fun v c0 c1 hn h0 h1 => ?_, fun hq => ?_⟩
  · rw [hn]
    exact ⟨by simp [wt, hn], rfl⟩
  · rw [hn]
    exact ⟨wt_of_getElem? hn, nodeDWord_leaf_fields x v⟩
  · rw [hn]
    exact ⟨wt_of_getElem? hn, nodeDWord_internal_fields v h0 h1⟩
  · rw [regRead_pq s hq]
    refine ⟨fun hn => by rw [hn]; rfl, fun j hj hlt => ?_⟩
    rw [hj]
    exact indexWord_fields hlt

end Sys2Proof.Machine
end

section
/-! PROOF. The command port and the host's accesses (20_memory.md R60 to R68; 70_reset_and_hazards.md R304, R305): whose turn
a step is, what it then does, and the run of a list of command words. -/

namespace Sys2Proof

/-! ### The word of a decoded command -/

/-- A legal word is the word of the command it decodes to (R92 to R97). -/
theorem encode_of_decode {w : Word} {i : Instr} (h : decode w = .ok i) : encode i = w := by
  unfold decode at h
  conv_rhs => rw [← commandWord_fields w]
  split at h
  -- WSETL and WSETH, of format W
  case h_5 ho | h_6 ho =>
    rw [formatW_eq_ok h, ho, encode]
  -- ENC and DEC, of format B
  case h_12 ho | h_14 ho =>
    obtain ⟨hi, himm⟩ := formatB_eq_ok h
    rw [hi, ho, himm, encode]
  -- no row of the opcode map
  case h_16 => cases h
  -- format N
  all_goals
    obtain ⟨hi, hbyte, himm⟩ := formatN_eq_ok h
    rw [hi, ‹opcField w = _›, hbyte, himm, encode]

end Sys2Proof

namespace Sys2Proof.Machine

/-! ### Whose turn a step is -/

section
variable {s : State}

/-- The host's next act reaches the block unless it waits for a pending command (R304, R305). -/
theorem hostTurn_of_free {r : HostReq} {rest : List HostReq} (hh : s.host = r :: rest) (hr : r.waits = true → s.pending = none) :
    s.hostTurn = some (r.act, rest) := by
  simp only [State.hostTurn, hh]
  refine if_neg fun h => ?_
  obtain ⟨hbusy, hwaits⟩ := (Bool.and_eq_true _ _).mp h
  simp [State.busy, hr hwaits] at hbusy

/-- While a command is pending, an act that waits for it leaves the turn to the block (R305). -/
theorem hostTurn_of_held (hp : s.pending.isSome) (hh : ∀ r ∈ s.host.head?, r.waits = true) : s.hostTurn = none := by
  unfold State.hostTurn
  split
  · rfl
  · next r rest he => exact if_pos (by simp [State.busy, hp, hh r (by simp [he])])

theorem step_host {a : HostAct} {rest : List HostReq} (h : s.hostTurn = some (a, rest)) :
    step s = hostAct a { s with host := rest } := by
  simp only [step, h]

/-- On the block's turn the pending word is performed, and is no longer pending (R64). -/
theorem step_perform {w : Word} (h : s.hostTurn = none) (hp : s.pending = some w) :
    step s = perform w { s with pending := none } := by
  simp only [step, h, blockTurn, hp]

/-! ### What an act of the host does -/

theorem admitted_iff (width : AccessWidth) (off : Offset) :
    admitted width off = true ↔ width = .word ∧ off.toNat % 4 = 0 := by
  simp [admitted]

theorem hostAct_write {off : Offset} (data : Word) (h : off.toNat % 4 = 0) :
    hostAct (.write .word off data) s = .next (hostWrite off data s) :=
  if_pos ((admitted_iff _ _).mpr ⟨rfl, h⟩)

theorem hostAct_read {off : Offset} (h : off.toNat % 4 = 0) : hostAct (.read .word off) s = .next (hostRead off s) :=
  if_pos ((admitted_iff _ _).mpr ⟨rfl, h⟩)

/-- A write to CMD issues the word (R47). -/
theorem hostWrite_command (data : Word) : hostWrite 0#14 data s = { s with pending := some data } := rfl

/-- A write to any other offset is ignored (R62). -/
theorem hostWrite_ignored {off : Offset} (data : Word) (h : off ≠ 0#14) : hostWrite off data s = s :=
  if_neg fun h0 => h (BitVec.eq_of_toNat_eq h0)

theorem hostRead_idle (off : Offset) (h : s.pending = none) :
    hostRead off s = { s with replies := s.replies ++ [s.regRead off] } :=
  if_neg (by simp [State.busy, h])

/-- An access is refused exactly when it is not admitted (R65); the reset input never is. -/
theorem hostAct_refused_iff (a : HostAct) : hostAct a s = .refused .accessNotAdmitted ↔
    ∃ width off, admitted width off = false ∧ (a = .read width off ∨ ∃ d, a = .write width off d) := by
  cases a with
  | write width off d => cases ha : admitted width off <;> simp [hostAct, ha]
  | read width off => cases ha : admitted width off <;> simp [hostAct, ha]
  | reset => simp [hostAct]

end

/-! ### The statements about single steps -/

/-- Settles O6: the word passes the gate, since it is the word of the command it decodes to. -/
theorem stepRunsThePendingCommand : Obligations.StepRunsThePendingCommand := by
  unfold Obligations.StepRunsThePendingCommand
  intro s w i hturn hp hd hgate
  rw [step_perform hturn hp, ← encode_of_decode hd]
  exact perform_encode_of_gate i (s := { s with pending := none }) hgate

/-- Settles O10: an ignored write is not a command, so it waits for a pending one only where the host polls. -/
theorem reservedReadsAndIgnoredWrites : Obligations.ReservedReadsAndIgnoredWrites := by
  unfold Obligations.ReservedReadsAndIgnoredWrites
  refine ⟨fun s => rfl, fun s off hlo hhi => ?_, fun s polled off d rest hh hal hne hpoll => ?_⟩
  · simp (disch := omega) only [State.regRead, if_neg, if_pos]
  · have hcmd : (HostAct.write .word off d).isCommand = false := by
      have h0 : off.toNat ≠ 0 := fun h => hne (BitVec.eq_of_toNat_eq h)
      simp [HostAct.isCommand, h0]
    have hturn : s.hostTurn = some (.write .word off d, rest) :=
      hostTurn_of_free hh fun hw => hpoll (by simpa [HostReq.waits, hcmd] using hw)
    rw [step_host hturn, hostAct_write d hal, hostWrite_ignored d hne]

/-- Settles O11: no register reads the host's acts or replies. -/
theorem readsHaveNoSideEffect : Obligations.ReadsHaveNoSideEffect := by
  unfold Obligations.ReadsHaveNoSideEffect
  intro s polled off rest hh hal hp
  refine ⟨_, ?_, rfl, fun _ => rfl⟩
  rw [step_host (hostTurn_of_free hh fun _ => hp), hostAct_read hal, hostRead_idle off (s := { s with host := rest }) hp]
  rfl

/-- Settles O13, from the acts that are refused. -/
theorem otherAccessesAreRefused : Obligations.OtherAccessesAreRefused := by
  unfold Obligations.OtherAccessesAreRefused
  intro s a rest hturn
  rw [step_host hturn, hostAct_refused_iff]
  simp only [← Bool.not_eq_true, admitted_iff, Classical.not_and_iff_not_or_not, ne_eq]

/-! ### The run of a list of command words -/

/-- Performing a word changes nothing on the host's side. -/
theorem perform_frame {w : Word} {s t : State} (h : perform w s = .next t) :
    t.pending = s.pending ∧ t.host = s.host ∧ t.replies = s.replies ∧ t.draws = s.draws := by
  rcases perform_cases w s with e | ⟨_, -, e⟩ | ⟨i, -, e⟩
  · rw [e] at h; cases h; exact ⟨rfl, rfl, rfl, rfl⟩
  · rw [e] at h; cases h; exact ⟨rfl, rfl, rfl, rfl⟩
  · rw [e] at h; exact (exec_effect h).host_frame

theorem runWords_cons_inv {w : Word} {ws : List Word} {s t : State} (h : runWords (w :: ws) s = .next t) :
    ∃ u, perform w s = .next u ∧ runWords ws u = .next t := by
  unfold runWords at h
  split at h
  · exact ⟨_, ‹_›, h⟩
  · cases h
  · cases h

/-- Every act of a script is a write to CMD, which waits for a pending command (R305). -/
theorem waits_of_mem_commandScript {ws : List Word} {r : HostReq} (h : r ∈ commandScript ws) : r.waits = true := by
  obtain ⟨w, -, rfl⟩ := List.mem_map.mp h
  rfl

theorem with_host_eq_self {s : State} {h : List HostReq} (hh : s.host = h) : { s with host := h } = s := by rw [← hh]

section
variable {w : Word} {s : State} (ws : List Word) (hp : s.pending = none)
include hp

/-- The first step of a word of the script: the port accepts it (R305). -/
theorem step_accepts_script (w : Word) : step { s with host := commandScript (w :: ws) } =
    .next { s with host := commandScript ws, pending := some w } := by
  have hturn : ({ s with host := commandScript (w :: ws) } : State).hostTurn =
      some (.write .word 0#14 w, commandScript ws) :=
    hostTurn_of_free (r := ⟨false, .write .word 0#14 w⟩) rfl fun _ => hp
  rw [step_host hturn, hostAct_write w rfl, hostWrite_command]

/-- The second step of a word of the script: the block performs it while the next word is held (R64, R305). -/
theorem step_performs_script {u : State} (hu : perform w s = .next u) :
    step { s with host := commandScript ws, pending := some w } = .next { u with host := commandScript ws } := by
  have hturn : ({ s with host := commandScript ws, pending := some w } : State).hostTurn = none :=
    hostTurn_of_held rfl fun r hr => waits_of_mem_commandScript (List.mem_of_mem_head? hr)
  have hidle : ({ s with pending := none } : State) = s := by rw [← hp]
  calc step { s with host := commandScript ws, pending := some w }
    _ = perform w { ({ s with pending := none } : State) with host := commandScript ws } := step_perform hturn rfl
    _ = onHost (commandScript ws) (perform w s) := by rw [hidle, perform_host]
    _ = .next { u with host := commandScript ws } := by rw [hu, onHost]

end

/-- The run of a script from an idle block takes two steps for each word. -/
theorem run_commandScript (ws : List Word) {s t : State} (hp : s.pending = none) (hh : s.host = [])
    (hr : runWords ws s = .next t) :
    Host.Core.run core (2 * ws.length) { s with host := commandScript ws } = .next t ∧ t.runOver := by
  induction ws generalizing s with
  | nil =>
    cases hr
    exact ⟨congrArg _ (with_host_eq_self hh), hh, hp⟩
  | cons w ws ih =>
    obtain ⟨u, hu, hrest⟩ := runWords_cons_inv hr
    obtain ⟨upending, uhost, -, -⟩ := perform_frame hu
    have hlen : 2 * (w :: ws).length = 2 * ws.length + 1 + 1 := by rw [List.length_cons, Nat.mul_succ]
    rw [hlen, run_step_next core (step_accepts_script ws hp w), run_step_next core (step_performs_script ws hp hu)]
    exact ih (upending.trans hp) (uhost.trans hh) hrest

/-- Settles O55, by induction on the words of the script. -/
theorem scriptPerformsTheWordsInOrder : Obligations.ScriptPerformsTheWordsInOrder := by
  unfold Obligations.ScriptPerformsTheWordsInOrder
  intro s t ws hp hh hr
  have hrun := run_commandScript ws (s := { s with host := [] }) hp rfl hr
  rwa [← with_host_eq_self hh]

end Sys2Proof.Machine
end

section
/-! PROOF. The opcode map, the illegal words and the assembler (30_encoding.md R91 to R101): when a word selects a row, when
it decodes to nothing, and the words of a statement. -/

namespace Sys2Proof

/-! ### Legal and illegal words -/

theorem decode_eq_ok_iff (w : Word) (i : Instr) : decode w = .ok i ↔ w = encode i :=
  ⟨fun h => (encode_of_decode h).symm, fun h => h ▸ decode_encode i⟩

/-- A word of format N is illegal exactly when a bit of 23:0 is set (R92). -/
theorem formatN_eq_error_iff (w : Word) (i : Instr) : (∃ e, formatN w i = .error e) ↔ w.extractLsb' 0 24 ≠ 0#24 := by
  unfold formatN lowBitsN
  split <;> simp [*]

/-- A word of format B is illegal exactly when a bit of 15:0 is set (R93). -/
theorem formatB_eq_error_iff (w : Word) (f : Byte → Instr) : (∃ e, formatB w f = .error e) ↔ w.extractLsb' 0 16 ≠ 0#16 := by
  unfold formatB immField
  split <;> simp [*]

/-- No word of format W is illegal (R94). -/
theorem formatW_ne_error (w : Word) (f : Byte → Half → Instr) : ¬ ∃ e, formatW w f = .error e := by
  simp [formatW]

/-- The illegal words (R98). -/
theorem decode_eq_error_iff (w : Word) : (∃ e, decode w = .error e) ↔
    opcField w ∉ assignedOpcodes ∨
    (opcField w ∈ assignedOpcodes ∧ opcField w ∉ [0x11#8, 0x12#8, 0x40#8, 0x51#8] ∧ w.extractLsb' 0 24 ≠ 0#24) ∨
    (opcField w ∈ [0x40#8, 0x51#8] ∧ w.extractLsb' 0 16 ≠ 0#16) := by
  unfold decode
  split
  -- WSETL and WSETH, of format W
  case h_5 ho | h_6 ho =>
    simp [formatW_ne_error, ho, assignedOpcodes]
  -- ENC and DEC, of format B
  case h_12 ho | h_14 ho =>
    simp [formatB_eq_error_iff, ho, assignedOpcodes]
  -- no row of the opcode map
  case h_16 =>
    simp_all [assignedOpcodes]
  -- format N
  all_goals
    simp [formatN_eq_error_iff, ‹opcField w = _›, assignedOpcodes]

theorem symbols_unassigned_length : (symbols.filter (· ∉ assignedOpcodes)).length = 241 := by decide +kernel

end Sys2Proof

namespace Sys2Proof.Machine

theorem passesGate_eq_false_of_illegal {w : Word} {e : Illegal} (h : decode w = .error e) : passesGate w = false := by
  rw [Bool.eq_false_iff]
  intro hw
  simp only [passesGate, Bool.or_eq_true, beq_iff_eq, or_assoc] at hw
  rcases hw with rfl | rfl | rfl <;> cases h

theorem perform_illegal {w : Word} {e : Illegal} {s : State} (hs : s.errCode = 0#4) (h : decode w = .error e) :
    perform w s = .next (s.recordError .illegalCommand w) := by
  simp [perform, State.err, hs, h, raise]

/-- Settles O4, from the forms of an illegal word and the gate that none of them passes. -/
theorem illegalWordsRaiseIllegalCommand : Obligations.IllegalWordsRaiseIllegalCommand := by
  unfold Obligations.IllegalWordsRaiseIllegalCommand
  exact ⟨symbols_unassigned_length, decode_eq_error_iff, fun w s e h =>
    ⟨fun hs => perform_illegal hs h, fun hs => perform_pending hs (passesGate_eq_false_of_illegal h)⟩⟩

end Sys2Proof.Machine

namespace Sys2Proof

/-! ### The rows of the opcode map -/

theorem OpcodeRow.selects_iff (r : OpcodeRow) (w : Word) : r.selects w = true ↔
    opcField w &&& opcField r.mask = opcField r.pattern ∧ byteField w &&& byteField r.mask = byteField r.pattern ∧
      immField w &&& immField r.mask = immField r.pattern := by
  have hfields : ∀ u v : Word, u = v ↔ opcField u = opcField v ∧ byteField u = byteField v ∧ immField u = immField v :=
    fun u v => ⟨fun h => h ▸ ⟨rfl, rfl, rfl⟩, fun ⟨h1, h2, h3⟩ => word_ext h1 h2 h3⟩
  simp only [OpcodeRow.selects, beq_iff_eq, hfields, opcField, byteField, immField, BitVec.extractLsb'_and]

/-- Every row's mask covers the OPC field, so the rows are told apart by it. -/
theorem opcField_of_selects {r : OpcodeRow} (hr : r ∈ opcodeTable) {w : Word} (h : r.selects w = true) :
    opcField w = opcField r.pattern := by
  have hmask : ∀ r ∈ opcodeTable, opcField r.mask = BitVec.allOnes 8 := by decide
  obtain ⟨hopc, -, -⟩ := (r.selects_iff w).mp h
  rwa [hmask r hr, BitVec.and_allOnes] at hopc

theorem opcodeTable_opcodes_distinct : ∀ r ∈ opcodeTable, ∀ r' ∈ opcodeTable,
    opcField r.pattern = opcField r'.pattern → r = r' := by decide

theorem opcodeTable_mnemonics_distinct : ∀ r ∈ opcodeTable, ∀ r' ∈ opcodeTable,
    r.mnemonic = r'.mnemonic → r = r' := by decide

/-- No two rows match one word (R96). -/
theorem row_unique {r r' : OpcodeRow} (hr : r ∈ opcodeTable) (hr' : r' ∈ opcodeTable) {w : Word}
    (h : r.selects w = true) (h' : r'.selects w = true) : r = r' :=
  opcodeTable_opcodes_distinct r hr r' hr' ((opcField_of_selects hr h).symm.trans (opcField_of_selects hr' h'))

/-- A row of format W selects the words with its opcode, whatever the operands (R94). -/
theorem selects_formatW (m : String) (opc x : Byte) (imm : Half) :
    (⟨m, commandWord opc 0#8 0#16, commandWord 0xFF#8 0#8 0#16⟩ : OpcodeRow).selects (commandWord opc x imm) = true := by
  have hopc : opc &&& 0xFF#8 = opc := BitVec.and_allOnes
  simp [OpcodeRow.selects_iff, hopc]

/-- A row of format B selects the words with its opcode and bits 15:0 zero (R93). -/
theorem selects_formatB (m : String) (opc x : Byte) :
    (⟨m, commandWord opc 0#8 0#16, commandWord 0xFF#8 0#8 0xFFFF#16⟩ : OpcodeRow).selects (commandWord opc x 0#16) = true := by
  have hopc : opc &&& 0xFF#8 = opc := BitVec.and_allOnes
  simp [OpcodeRow.selects_iff, hopc]

/-- Every command has a row, which selects its word (R96). -/
theorem exists_row_of_instr (i : Instr) : ∃ r ∈ opcodeTable, r.mnemonic = i.mnemonic ∧ r.selects (encode i) = true := by
  cases i with
  | wsetl x imm => exact ⟨_, by decide, rfl, selects_formatW "WSETL" 0x11#8 x imm⟩
  | wseth x imm => exact ⟨_, by decide, rfl, selects_formatW "WSETH" 0x12#8 x imm⟩
  | enc x => exact ⟨_, by decide, rfl, selects_formatB "ENC" 0x40#8 x⟩
  | dec d => exact ⟨_, by decide, rfl, selects_formatB "DEC" 0x51#8 d⟩
  | _ => decide

/-- A row selects the word of a command exactly when it is the command's row (R96). -/
theorem selects_encode_iff {r : OpcodeRow} (hr : r ∈ opcodeTable) (i : Instr) :
    r.selects (encode i) = true ↔ i.mnemonic = r.mnemonic := by
  obtain ⟨r', hr', hm, hsel⟩ := exists_row_of_instr i
  constructor
  · intro h
    rw [row_unique hr hr' h hsel, hm]
  · intro h
    rwa [opcodeTable_mnemonics_distinct r hr r' hr' (h.symm.trans hm.symm)]

/-- A row's mask leaves no must-be-zero bit of its format unchecked (R92, R93). -/
theorem opcodeTable_checks_zero_bits : ∀ r ∈ opcodeTable, opcField r.pattern ∈ assignedOpcodes ∧
    (opcField r.pattern ∉ [0x11#8, 0x12#8, 0x40#8, 0x51#8] → r.mask = BitVec.allOnes 32 ∧ lowBitsN r.pattern = 0#24) ∧
    (opcField r.pattern ∈ [0x40#8, 0x51#8] → immField r.mask = BitVec.allOnes 16 ∧ immField r.pattern = 0#16) := by
  decide

/-- A word that a row selects has none of the forms of an illegal word (R98). -/
theorem exists_decode_of_selects {r : OpcodeRow} (hr : r ∈ opcodeTable) {w : Word} (h : r.selects w = true) :
    ∃ i, decode w = .ok i := by
  cases hd : decode w with
  | ok i => exact ⟨i, rfl⟩
  | error e =>
    exfalso
    have hill := (decode_eq_error_iff w).mp ⟨e, hd⟩
    obtain ⟨hassigned, hN, hB⟩ := opcodeTable_checks_zero_bits r hr
    rw [← opcField_of_selects hr h] at hassigned hN hB
    rcases hill with hno | ⟨-, hfmt, hlow⟩ | ⟨hfmt, himm⟩
    · exact hno hassigned
    · obtain ⟨hmask, hpat⟩ := hN hfmt
      have hw : w &&& r.mask = r.pattern := beq_iff_eq.mp h
      rw [hmask, BitVec.and_allOnes] at hw
      exact hlow (hw ▸ hpat)
    · obtain ⟨hmask, hpat⟩ := hB hfmt
      obtain ⟨-, -, hw⟩ := (r.selects_iff w).mp h
      rw [hmask, hpat, BitVec.and_allOnes] at hw
      exact himm hw

/-- A row selects the words that decode to its command, and no other (R96). -/
theorem selects_iff_decode {r : OpcodeRow} (hr : r ∈ opcodeTable) (w : Word) :
    r.selects w = true ↔ ∃ i, decode w = .ok i ∧ i.mnemonic = r.mnemonic := by
  constructor
  · intro h
    obtain ⟨i, hi⟩ := exists_decode_of_selects hr h
    rw [← encode_of_decode hi, selects_encode_iff hr] at h
    exact ⟨i, hi, h⟩
  · rintro ⟨i, hi, hm⟩
    rwa [← encode_of_decode hi, selects_encode_iff hr]

theorem wordWellFormed_encode (i : Instr) : wordWellFormed (encode i) = true := by
  obtain ⟨r, hr, -, hsel⟩ := exists_row_of_instr i
  exact List.any_eq_true.mpr ⟨r, hr, hsel⟩

/-- Settles O3: a row selects the words of its own command, and every legal word is the word of a command. -/
theorem opcodeRowsSelectCommands : Obligations.OpcodeRowsSelectCommands := by
  unfold Obligations.OpcodeRowsSelectCommands
  refine ⟨rfl, fun w r hr r' hr' => row_unique hr hr', fun w i => ?_, fun w r hr => selects_iff_decode hr w⟩
  rw [decode_eq_ok_iff]
  exact ⟨fun h => ⟨h ▸ wordWellFormed_encode i, h⟩, And.right⟩

end Sys2Proof

namespace Sys2Proof.Machine

/-! ### The words of a statement -/

theorem commandWord_toNat (opc b : Byte) (imm : Half) :
    (commandWord opc b imm).toNat = 0x1000000 * opc.toNat + 0x10000 * b.toNat + imm.toNat := by
  unfold commandWord
  rw [BitVec.toNat_append, BitVec.toNat_append, ← Nat.shiftLeft_add_eq_or_of_lt imm.isLt,
    ← Nat.shiftLeft_add_eq_or_of_lt b.isLt]
  omega

/-- The word whose fields hold operands in range, as a number (R91). -/
theorem commandWord_ofNat (opc : Byte) {b imm : Nat} (hb : b ≤ 255) (him : imm ≤ 65535) :
    commandWord opc (BitVec.ofNat 8 b) (BitVec.ofNat 16 imm) =
      BitVec.ofNat 32 (0x1000000 * opc.toNat + 0x10000 * b + imm) := by
  have hopc := opc.isLt
  apply BitVec.eq_of_toNat_eq
  rw [commandWord_toNat, toNat_ofNat_of_fits (by omega), toNat_ofNat_of_fits (by omega), toNat_ofNat_of_fits (by omega)]

theorem assembleAsm_of_wf {a : Asm} (h : a.wf = true) : assembleAsm a = some ((expandAsm a).map encode) := if_pos h

theorem assembleAsm_of_not_wf {a : Asm} (h : a.wf ≠ true) : assembleAsm a = none := if_neg h

section
variable {x n imm v : Nat}

theorem encode_enc_ofNat (hx : x ≤ 255) : encode (.enc (BitVec.ofNat 8 x)) = BitVec.ofNat 32 (0x40000000 + 0x10000 * x) :=
  commandWord_ofNat 0x40#8 hx (Nat.zero_le _)

theorem encode_dec_ofNat (hx : x ≤ 255) : encode (.dec (BitVec.ofNat 8 x)) = BitVec.ofNat 32 (0x51000000 + 0x10000 * x) :=
  commandWord_ofNat 0x51#8 hx (Nat.zero_le _)

theorem encode_wsetl_ofNat (hx : x ≤ 255) (him : imm ≤ 65535) :
    encode (.wsetl (BitVec.ofNat 8 x) (BitVec.ofNat 16 imm)) = BitVec.ofNat 32 (0x11000000 + 0x10000 * x + imm) :=
  commandWord_ofNat 0x11#8 hx him

theorem encode_wseth_ofNat (hx : x ≤ 255) (him : imm ≤ 65535) :
    encode (.wseth (BitVec.ofNat 8 x) (BitVec.ofNat 16 imm)) = BitVec.ofNat 32 (0x12000000 + 0x10000 * x + imm) :=
  commandWord_ofNat 0x12#8 hx him

/-- The immediate of WSET's first word is the low half of its number (R101). -/
theorem ofNat_low_half : BitVec.ofNat 16 v = BitVec.ofNat 16 (v % 0x10000) := by
  apply BitVec.eq_of_toNat_eq
  simp

theorem expandWset_short (h : v < 0x10000) (x : Nat) : expandWset x v = [.wsetl (BitVec.ofNat 8 x) (BitVec.ofNat 16 v)] := by
  rw [expandWset, if_pos (Nat.div_eq_of_lt h)]

theorem expandWset_long (h : 0x10000 ≤ v) (x : Nat) : expandWset x v =
    [.wsetl (BitVec.ofNat 8 x) (BitVec.ofNat 16 v), .wseth (BitVec.ofNat 8 x) (BitVec.ofNat 16 (v / 0x10000))] := by
  rw [expandWset, if_neg (by omega)]

@[simp] theorem isByte_iff : isByte n = true ↔ n ≤ 255 := decide_eq_true_iff
@[simp] theorem isHalf_iff : isHalf n = true ↔ n ≤ 65535 := decide_eq_true_iff

theorem assembleAsm_enc (hx : x ≤ 255) : assembleAsm (.enc x) = some [BitVec.ofNat 32 (0x40000000 + 0x10000 * x)] := by
  rw [← encode_enc_ofNat hx]
  exact assembleAsm_of_wf (isByte_iff.mpr hx)

theorem assembleAsm_dec (hx : x ≤ 255) : assembleAsm (.dec x) = some [BitVec.ofNat 32 (0x51000000 + 0x10000 * x)] := by
  rw [← encode_dec_ofNat hx]
  exact assembleAsm_of_wf (isByte_iff.mpr hx)

theorem assembleAsm_wsetl (hx : x ≤ 255) (him : imm ≤ 65535) :
    assembleAsm (.wsetl x imm) = some [BitVec.ofNat 32 (0x11000000 + 0x10000 * x + imm)] := by
  rw [← encode_wsetl_ofNat hx him]
  exact assembleAsm_of_wf (by simp [Asm.wf, hx, him])

theorem assembleAsm_wseth (hx : x ≤ 255) (him : imm ≤ 65535) :
    assembleAsm (.wseth x imm) = some [BitVec.ofNat 32 (0x12000000 + 0x10000 * x + imm)] := by
  rw [← encode_wseth_ofNat hx him]
  exact assembleAsm_of_wf (by simp [Asm.wf, hx, him])

theorem assembleAsm_wset (hx : x ≤ 255) (hv : v < 2 ^ 32) :
    assembleAsm (.wset x v) = some ((expandWset x v).map encode) :=
  assembleAsm_of_wf (by simpa [Asm.wf, hx] using hv)

theorem assembleAsm_wset_short (hx : x ≤ 255) (hv : v < 0x10000) :
    assembleAsm (.wset x v) = some [BitVec.ofNat 32 (0x11000000 + 0x10000 * x + v)] := by
  rw [assembleAsm_wset hx (by omega), expandWset_short hv, ← encode_wsetl_ofNat hx (by omega)]
  rfl

theorem assembleAsm_wset_long (hx : x ≤ 255) (hlo : 0x10000 ≤ v) (hv : v < 2 ^ 32) :
    assembleAsm (.wset x v) = some [BitVec.ofNat 32 (0x11000000 + 0x10000 * x + v % 0x10000),
      BitVec.ofNat 32 (0x12000000 + 0x10000 * x + v / 0x10000)] := by
  rw [assembleAsm_wset hx hv, expandWset_long hlo, ofNat_low_half, ← encode_wsetl_ofNat hx (by omega),
    ← encode_wseth_ofNat hx (by omega)]
  rfl

end

/-- Each character of ENCSTR's text is an ENC of its own, in order (R101). -/
theorem assembleAsm_encstr {text : List Nat} (h : ∀ c ∈ text, c ≤ 255) :
    assembleAsm (.encstr text) = some (text.map fun c => BitVec.ofNat 32 (0x40000000 + 0x10000 * c)) := by
  rw [assembleAsm_of_wf (by simpa [Asm.wf] using h), expandAsm, List.map_map]
  exact congrArg some (List.map_congr_left fun c hc => encode_enc_ofNat (h c hc))

/-- Each character of DECSTR's string is a DEC of its own, in order (R101). -/
theorem assembleAsm_decstr {bits : List Nat} (h : ∀ c ∈ bits, c ≤ 255) :
    assembleAsm (.decstr bits) = some (bits.map fun c => BitVec.ofNat 32 (0x51000000 + 0x10000 * c)) := by
  rw [assembleAsm_of_wf (by simpa [Asm.wf] using h), expandAsm, List.map_map]
  exact congrArg some (List.map_congr_left fun c hc => encode_dec_ofNat (h c hc))

/-! An operand out of range is an assembler error (R100). -/

section
variable {x n imm v : Nat}

theorem assembleAsm_byte_out_of_range (h : 255 < n) : assembleAsm (.enc n) = none ∧ assembleAsm (.dec n) = none := by
  have hwf : ¬ isByte n = true := by simpa using h
  exact ⟨assembleAsm_of_not_wf hwf, assembleAsm_of_not_wf hwf⟩

theorem assembleAsm_half_out_of_range (h : 255 < x ∨ 65535 < imm) :
    assembleAsm (.wsetl x imm) = none ∧ assembleAsm (.wseth x imm) = none := by
  have hwf : ¬ (isByte x && isHalf imm) = true := by
    rw [Bool.and_eq_true, isByte_iff, isHalf_iff]
    omega
  exact ⟨assembleAsm_of_not_wf hwf, assembleAsm_of_not_wf hwf⟩

theorem assembleAsm_wset_out_of_range (h : 255 < x ∨ 2 ^ 32 ≤ v) : assembleAsm (.wset x v) = none := by
  have hwf : ¬ (isByte x && decide (v < 2 ^ 32)) = true := by
    rw [Bool.and_eq_true, isByte_iff, decide_eq_true_iff]
    omega
  exact assembleAsm_of_not_wf hwf

theorem assembleAsm_string_out_of_range {text : List Nat} (h : ∃ c ∈ text, 255 < c) :
    assembleAsm (.encstr text) = none ∧ assembleAsm (.decstr text) = none := by
  have hwf : ¬ text.all isByte = true := by simpa using h
  exact ⟨assembleAsm_of_not_wf hwf, assembleAsm_of_not_wf hwf⟩

end

/-- Settles O5, from one lemma per statement and one per way an operand is out of range. -/
theorem statementsAssembleToTheirWords : Obligations.StatementsAssembleToTheirWords := by
  unfold Obligations.StatementsAssembleToTheirWords
  refine ⟨by decide, by decide, fun n => ?_, fun x imm => ?_, fun x v => ?_, fun text => ?_⟩
  · exact ⟨fun hn => ⟨assembleAsm_enc hn, assembleAsm_dec hn⟩, assembleAsm_byte_out_of_range⟩
  · exact ⟨fun hx him => ⟨assembleAsm_wsetl hx him, assembleAsm_wseth hx him⟩, assembleAsm_half_out_of_range⟩
  · exact ⟨assembleAsm_wset_short, assembleAsm_wset_long, assembleAsm_wset_out_of_range⟩
  · exact ⟨fun h => ⟨assembleAsm_encstr h, assembleAsm_decstr h⟩, assembleAsm_string_out_of_range⟩

/-! ### Loading a weight -/

theorem weightOf_setWeight (s : State) (x y : Byte) (v : Word) :
    (s.setWeight x v).weightOf y = if y = x then v else s.weightOf y :=
  readTable_writeTable s.weight x y v

/-- A second write of one weight replaces the first. -/
theorem setWeight_setWeight (s : State) (x : Byte) (u v : Word) : (s.setWeight x u).setWeight x v = s.setWeight x v := by
  simp [State.setWeight, writeTable]

theorem lowWeight_ofNat {v : Nat} (h : v < 0x10000) : lowWeight (BitVec.ofNat 16 v) = BitVec.ofNat 32 v := by
  apply BitVec.eq_of_toNat_eq
  rw [lowWeight, BitVec.toNat_setWidth, BitVec.toNat_ofNat, BitVec.toNat_ofNat]
  omega

/-- WSETH over the weight that WSETL wrote makes the whole number (R95). -/
theorem highWeight_lowWeight_ofNat (v : Nat) :
    highWeight (BitVec.ofNat 16 (v / 0x10000)) (lowWeight (BitVec.ofNat 16 v)) = BitVec.ofNat 32 v := by
  apply BitVec.eq_of_toNat_eq
  rw [highWeight, BitVec.toNat_append, ← Nat.shiftLeft_add_eq_or_of_lt (BitVec.isLt _)]
  simp only [lowWeight, BitVec.extractLsb'_toNat, BitVec.toNat_setWidth, BitVec.toNat_ofNat, Nat.shiftRight_zero, Nat.shiftLeft_eq]
  omega

/-- The words of WSET write one weight once, whichever the number of words. -/
theorem runWords_expandWset {s : State} (hs : s.errCode = 0#4) (x v : Nat) :
    runWords ((expandWset x v).map encode) s = .next (s.setWeight (BitVec.ofNat 8 x) (BitVec.ofNat 32 v)) := by
  have hlow : perform (encode (.wsetl (BitVec.ofNat 8 x) (BitVec.ofNat 16 v))) s =
      .next (s.setWeight (BitVec.ofNat 8 x) (lowWeight (BitVec.ofNat 16 v))) := perform_encode _ hs
  rcases Nat.lt_or_ge v 0x10000 with h | h
  · rw [expandWset_short h, List.map_cons, runWords_cons_next hlow, lowWeight_ofNat h]
    rfl
  · have hhigh : perform (encode (.wseth (BitVec.ofNat 8 x) (BitVec.ofNat 16 (v / 0x10000))))
        (s.setWeight (BitVec.ofNat 8 x) (lowWeight (BitVec.ofNat 16 v))) =
        .next (s.setWeight (BitVec.ofNat 8 x) (BitVec.ofNat 32 v)) := by
      rw [perform_encode _ (s := s.setWeight _ _) hs, exec, execWseth, weightOf_setWeight, if_pos rfl,
        highWeight_lowWeight_ofNat, setWeight_setWeight]
    rw [expandWset_long h, List.map_cons, List.map_cons, runWords_cons_next hlow, runWords_cons_next hhigh]
    rfl

/-- Settles O23: the words of WSET come to one write of the weight. -/
theorem wsetLoadsAWholeWeight : Obligations.WsetLoadsAWholeWeight := by
  unfold Obligations.WsetLoadsAWholeWeight
  intro s x v hx hv hs
  refine ⟨_, _, assembleAsm_wset hx hv, runWords_expandWset hs x v, ?_, fun y hy => ?_, rfl⟩
  · rw [weightOf_setWeight, if_pos rfl, toNat_ofNat_of_fits hv]
  · rw [weightOf_setWeight, if_neg hy]

end Sys2Proof.Machine
end

section
/-! PROOF. The weight-table commands (40_weights.md R120 to R122): what each makes of the weights. -/

namespace Sys2Proof.Machine

/-! ### The two writes of a weight -/

@[simp] theorem weightOf_setWeight_self (s : State) (x : Byte) (v : Word) : (s.setWeight x v).weightOf x = v :=
  readTable_writeTable_self ..

theorem weightOf_setWeight_of_ne {x y : Byte} (s : State) (v : Word) (h : y ≠ x) :
    (s.setWeight x v).weightOf y = s.weightOf y := by
  rw [weightOf_setWeight, if_neg h]

/-- WSETL's immediate is widened with zeros (R121). -/
@[simp] theorem lowWeight_toNat (imm : Half) : (lowWeight imm).toNat = imm.toNat :=
  BitVec.toNat_setWidth_of_le (by decide)

@[simp] theorem highWeight_upper (imm : Half) (old : Word) : (highWeight imm old).extractLsb' 16 16 = imm :=
  BitVec.extractLsb'_append_eq_left

@[simp] theorem highWeight_lower (imm : Half) (old : Word) :
    (highWeight imm old).extractLsb' 0 16 = old.extractLsb' 0 16 :=
  BitVec.extractLsb'_append_eq_right

/-! ### The statements about the commands -/

/-- Settles O20: the table that WCLR puts in place reads 0 for every symbol. -/
theorem wclrClearsEveryWeight : Obligations.WclrClearsEveryWeight := by
  unfold Obligations.WclrClearsEveryWeight
  exact ⟨by decide, fun s => ⟨{ s with weight := zeroWeights }, rfl, fun x => readTable_fill .., rfl⟩⟩

/-- Settles O21: WSETL is one write, of the widened immediate. -/
theorem wsetlSetsOneWeight : Obligations.WsetlSetsOneWeight := by
  unfold Obligations.WsetlSetsOneWeight
  intro s x imm
  refine ⟨rfl, s.setWeight x (lowWeight imm), rfl, ?_, fun y hy => weightOf_setWeight_of_ne s _ hy, rfl⟩
  rw [weightOf_setWeight_self, lowWeight_toNat]

/-- Settles O22: WSETH is one write, of the immediate above the low half that stood there. -/
theorem wsethSetsTheUpperHalf : Obligations.WsethSetsTheUpperHalf := by
  unfold Obligations.WsethSetsTheUpperHalf
  intro s x imm
  refine ⟨rfl, s.setWeight x (highWeight imm (s.weightOf x)), rfl, ?_, ?_,
    fun y hy => weightOf_setWeight_of_ne s _ hy, rfl⟩
  · rw [weightOf_setWeight_self, highWeight_upper]
  · rw [weightOf_setWeight_self, highWeight_lower]

end Sys2Proof.Machine
end

section
/-! PROOF. The priority queue, BINIT and MERGE (41_tree.md R141 to R145), and the capacities of the queue and the arena
(R152). -/

namespace Sys2Proof.Machine

/-! ### Insertion into a sorted queue -/

/-- `pq_insert` keeps a queue sorted by weight (R148). -/
theorem pqInsert_sorted {node : List Node} {pq : List Nat} (x : Nat)
    (h : pq.Pairwise fun i j => wt node i ≤ wt node j) :
    (pqInsert node pq x).Pairwise fun i j => wt node i ≤ wt node j := by
  obtain ⟨front, back, rfl, hins, hfront, hback⟩ := pqInsert_split x h
  rw [List.pairwise_append] at h
  obtain ⟨hf, hb, hfb⟩ := h
  rw [hins, List.pairwise_append, List.pairwise_cons]
  refine ⟨hf, ⟨fun j hj => BitVec.le_of_lt (hback j hj), hb⟩, fun i hi j hj => ?_⟩
  rcases List.mem_cons.1 hj with rfl | hj
  · exact hfront i hi
  · exact hfb i hi j hj

/-- Settles O24: the count of entries not heavier splits a sorted queue where the node goes. -/
theorem queueInsertionIsStable : Obligations.QueueInsertionIsStable := by
  unfold Obligations.QueueInsertionIsStable
  intro node pq x h
  obtain ⟨front, back, hpq, hins, hfront, hback⟩ := pqInsert_split x h
  exact ⟨front, back, hpq, hins, hfront, hback, pqInsert_sorted x h⟩

/-! ### The arena that BINIT makes -/

/-- Leaves have no children. -/
theorem childLinks_leafOf (weight : ByteTable Word) (xs : List Byte) : childLinks (xs.map (leafOf weight)) = [] := by
  simp [childLinks, List.flatMap_map, leafOf, Node.children]

theorem loadQueue_node_length (s : State) : (loadQueue s).node.length = (participants s.weight).length := by
  rw [(loadQueue_spec s).node, List.length_map]

/-- With no merge made, the queue holds every node (R26 (b), R144). -/
theorem loadQueue_pq_perm (s : State) : (loadQueue s).pq.Perm (List.range (loadQueue s).node.length) := by
  have h := loadQueue_spec s
  have hlinks : childLinks (loadQueue s).node = [] := h.node ▸ childLinks_leafOf _ _
  simpa [hlinks] using h.building.forest.owned

@[simp] theorem loadQueue_tstate (s : State) : (loadQueue s).tstate = .tBuilding := rfl
@[simp] theorem loadQueue_code (s : State) : (loadQueue s).code = emptyTable := rfl

theorem codeOf_of_emptyTable {s : State} (h : s.code = emptyTable) (x : Byte) : s.codeOf x = [] := by
  rw [State.codeOf, h, emptyTable, readTable_fill]

/-- Settles O25, from all that BINIT's loop does. -/
theorem binitLoadsOneLeafPerParticipant : Obligations.BinitLoadsOneLeafPerParticipant := by
  unfold Obligations.BinitLoadsOneLeafPerParticipant
  refine ⟨by decide, fun s => ⟨loadQueue s, rfl, ?_⟩⟩
  have h := loadQueue_spec s
  refine ⟨h.node, ?_, loadQueue_pq_perm s, h.building.sorted, rfl, rfl, rfl, codeOf_of_emptyTable rfl, h.frame⟩
  rw [h.nleaves, loadQueue_node_length]

/-! ### MERGE -/

theorem execMerge_ok {s : State} {a b : Nat} {rest : List Nat} (hq : s.pq = a :: b :: rest)
    (hlt : (wt s.node a).toNat + (wt s.node b).toNat < 2 ^ 32) : execMerge s = .next (mergedState s a b rest) := by
  rw [execMerge, mergeOne_cons hq, if_neg (Nat.not_le.2 hlt)]

theorem execMerge_overflow {s : State} {a b : Nat} {rest : List Nat} (hq : s.pq = a :: b :: rest)
    (hle : 2 ^ 32 ≤ (wt s.node a).toNat + (wt s.node b).toNat) :
    execMerge s = .next (s.recordError .weightOverflow (encode .merge)) := by
  rw [execMerge, mergeOne_cons hq, if_pos hle]
  rfl

theorem execMerge_short {s : State} (h : s.pq.length < 2) :
    execMerge s = .next (s.recordError .emptyQueue (encode .merge)) := by
  rw [execMerge, mergeOne_short h]
  rfl

/-- Settles O26: one case for each thing that `merge_one` can do. -/
theorem mergeJoinsTheTwoFrontNodes : Obligations.MergeJoinsTheTwoFrontNodes := by
  unfold Obligations.MergeJoinsTheTwoFrontNodes
  refine ⟨by decide, fun s a b rest hq hlt => ?_, fun s a b rest hq hle => ?_, fun s h => ?_⟩
  · refine ⟨mergedState s a b rest, wt s.node a + wt s.node b, execMerge_ok hq hlt, rfl, ?_, rfl, ?_, rfl⟩
    · rw [BitVec.toNat_add, Nat.mod_eq_of_lt hlt]
    · simp [mergedState, hq]
  · exact execMerge_overflow hq hle
  · exact execMerge_short h

/-! ### Capacities -/

/-- A node without a parent stands for at least one leaf. -/
theorem Forest.held_length_le {node : List Node} {n : Nat} {held : List Nat} (h : Forest node n held) :
    held.length ≤ n := by
  have hsize := h.size
  have hleaves := h.leafCount.1
  omega

/-- An arena with leaves holds a node without a parent, so it has at most 2n - 1 nodes (R152). -/
theorem Forest.length_lt {node : List Node} {n : Nat} {held : List Nat} (h : Forest node n held) (hn : 0 < n) :
    node.length < 2 * n := by
  have hheld : held ≠ [] := by
    rintro rfl
    exact hn.ne' h.nothing_held
  have hsize := h.size
  have := List.length_pos_iff.2 hheld
  omega

/-- Settles O54: the sizes of a well-formed arena. -/
theorem capacitiesAreNeverExceeded : Obligations.CapacitiesAreNeverExceeded := by
  unfold Obligations.CapacitiesAreNeverExceeded
  intro s h
  have hsize := h.arena.size
  have hheld := h.arena.held_length_le
  have hmax : s.nleaves ≤ 256 := h.arena.leafCount.2
  rw [List.length_append] at hheld
  refine ⟨by omega, hmax, fun hn => List.length_eq_zero_iff.1 (by omega), fun hn => ?_⟩
  have hlt := h.arena.length_lt hn
  omega

end Sys2Proof.Machine
end

section
/-! PROOF. FINISH as repeated MERGE (41_tree.md R146, R150, R153), and BUILD as BINIT then FINISH (R147). -/

namespace Sys2Proof.Machine

/-! ### The merge loop with the queue's length as its bound -/

theorem mergeLoop_of_length_le_one (fuel : Nat) {s : State} (h : s.pq.length ≤ 1) : mergeLoop fuel s = .ok s := by
  cases fuel with
  | zero => rfl
  | succ fuel => rw [mergeLoop, if_neg (by omega)]

/-- The loop may as well start after its first merge. -/
theorem mergeLoop_of_mergeOne_ok {s t : State} (h : mergeOne s = .ok t) :
    mergeLoop s.pq.length s = mergeLoop t.pq.length t := by
  obtain ⟨a, b, rest, hq, -, rfl⟩ := mergeOne_ok h
  have hs : s.pq.length = rest.length + 2 := by simp [hq]
  have ht : (mergedState s a b rest).pq.length = rest.length + 1 := by simp [mergedState]
  rw [ht, hs, mergeLoop, if_pos (by omega), h]

theorem mergeLoop_overflow {s : State} {a b : Nat} {rest : List Nat} (hq : s.pq = a :: b :: rest)
    (hle : 2 ^ 32 ≤ (wt s.node a).toNat + (wt s.node b).toNat) :
    mergeLoop s.pq.length s = .error (.weightOverflow, s) := by
  have hs : s.pq.length = rest.length + 2 := by simp [hq]
  rw [hs, mergeLoop, if_pos (by omega), mergeOne_cons hq, if_pos hle]

/-! ### What FINISH makes of the loop's result -/

section
variable (w : Word) {s t : State} (hs : s.tstate = .tBuilding)
include hs

theorem finishTree_root {r : Nat} {rest : List Nat} (h : mergeLoop s.pq.length s = .ok t) (hq : t.pq = r :: rest) :
    finishTree w s = .next { t with pq := rest, tstate := .tReady r r } := by
  simp only [finishTree, hs, h, hq, pqExtractMin]

theorem finishTree_empty (h : mergeLoop s.pq.length s = .ok t) (hq : t.pq = []) :
    finishTree w s = .next { t with tstate := .tEmpty } := by
  simp only [finishTree, hs, h, hq, pqExtractMin]

theorem finishTree_error {e : HufError} (h : mergeLoop s.pq.length s = .error (e, t)) :
    finishTree w s = .next (t.recordError e w) := by
  simp only [finishTree, hs, h, raise]

/-- The command's word shows in the error record only, and an overflow is the only way to stay in BUILDING. -/
theorem finishTree_word :
    (∃ u : State, u.tstate = .tBuilding ∧ ∀ w, finishTree w s = .next (u.recordError .weightOverflow w)) ∨
      ∃ u : State, u.tstate ≠ .tBuilding ∧ ∀ w, finishTree w s = .next u := by
  rcases mergeLoop_frame s.pq.length s with ⟨t, e, -⟩ | ⟨t, e, ht⟩
  · cases hq : t.pq with
    | nil => exact .inr ⟨{ t with tstate := .tEmpty }, nofun, fun w => finishTree_empty w hs e hq⟩
    | cons r rest =>
      exact .inr ⟨{ t with pq := rest, tstate := .tReady r r }, nofun, fun w => finishTree_root w hs e hq⟩
  · exact .inl ⟨t, by rw [ht]; exact hs, fun w => finishTree_error w hs e⟩

end

/-! ### MERGE repeated -/

/-- Behind a pending error, MERGE commands are discarded (R273). -/
theorem runWords_merges_pending {s : State} (k : Nat) (h : s.errCode ≠ 0#4) :
    runWords (List.replicate k (encode .merge)) s = .next s := by
  induction k with
  | zero => rfl
  | succ k ih => rw [List.replicate_succ, runWords_cons_next (perform_pending h (by decide)), ih]

/-- MERGE commands that raise no error are turns of FINISH's loop: it ends where it ends after them. -/
theorem mergeLoop_of_runWords_merges {s t : State} {k : Nat} (hs : s.errCode = 0#4)
    (hrun : runWords (List.replicate k (encode .merge)) s = .next t) (ht : t.errCode = 0#4) :
    mergeLoop s.pq.length s = mergeLoop t.pq.length t := by
  induction k generalizing s with
  | zero => cases hrun; rfl
  | succ k ih =>
    have hp : perform (encode .merge) s = execMerge s := perform_encode .merge hs
    rw [List.replicate_succ] at hrun
    cases hm : mergeOne s with
    | ok u =>
      rw [runWords_cons_next (t := u) (by rw [hp, execMerge, hm])] at hrun
      have hu : u.errCode = 0#4 := by
        obtain ⟨a, b, rest, -, -, rfl⟩ := mergeOne_ok hm
        exact hs
      exact (mergeLoop_of_mergeOne_ok hm).trans (ih hu hrun)
    | error e =>
      have hcode := e.code_ne_zero
      rw [runWords_cons_next (t := s.recordError e (encode .merge)) (by rw [hp, execMerge, hm]; rfl),
        runWords_merges_pending k hcode] at hrun
      cases hrun
      exact absurd ht hcode

/-- Settles O27: FINISH's loop goes on from where the MERGE commands have come. -/
theorem finishMergesAndTakesTheRoot : Obligations.FinishMergesAndTakesTheRoot := by
  unfold Obligations.FinishMergesAndTakesTheRoot
  refine ⟨by decide, fun s hs => finishTree_other _ hs, fun s hs hq => ?_, fun s t r k hs herr hrun ht hq => ?_,
    fun s t a b rest k hs herr hrun ht hq hle => ?_⟩
  · exact finishTree_empty _ hs (mergeLoop_of_length_le_one _ (by simp [hq])) hq
  · refine finishTree_root _ hs ?_ hq
    rw [mergeLoop_of_runWords_merges herr hrun ht, mergeLoop_of_length_le_one _ (by simp [hq])]
  · refine finishTree_error _ hs (e := .weightOverflow) ?_
    rw [mergeLoop_of_runWords_merges herr hrun ht, mergeLoop_overflow hq hle]

/-- Settles O28, from all that FINISH does of a half-built tree. -/
theorem finishCompletesTheTree : Obligations.FinishCompletesTheTree := by
  unfold Obligations.FinishCompletesTheTree
  intro s hinv hs
  rcases finishTree_spec (encode .finish) (Inv_building hinv hs) hs with
    ⟨hn, e⟩ | ⟨hn, hsum, t, hm, hq, hlen, e⟩ | ⟨hn, hsum, -⟩
  · exact ⟨fun _ => e, fun hpos => absurd hn hpos.ne'⟩
  · refine ⟨fun h => absurd h hn.ne', fun _ _ => ⟨_, e, rfl, rfl, hm.grows, Nat.eq_sub_of_add_eq hlen, ?_, ?_⟩⟩
    · simpa [hq, weightSum] using hm.sum
    · rw [hm.frame]
  · exact ⟨fun h => by omega, fun _ hlt => absurd hlt (Nat.not_lt.2 hsum)⟩

/-- Settles O29: FINISH and BUILD run one pseudocode, in which the command's word reaches the error record only. -/
theorem buildIsBinitThenFinish : Obligations.BuildIsBinitThenFinish := by
  unfold Obligations.BuildIsBinitThenFinish
  refine ⟨by decide, fun s t u hbinit hfinish => ?_⟩
  obtain rfl : loadQueue s = t := Host.Outcome.next.inj hbinit
  rcases finishTree_word (loadQueue_tstate s) with ⟨v, hv, e⟩ | ⟨v, hv, e⟩
  · cases (e (encode .finish)).symm.trans hfinish
    exact ⟨fun hne => absurd hv hne, fun _ => ⟨rfl, rfl, e (encode .build)⟩⟩
  · cases (e (encode .finish)).symm.trans hfinish
    exact ⟨fun _ => e (encode .build), fun hb => absurd hb hv⟩

end Sys2Proof.Machine
end

section
/-! PROOF. BUILD in terms of the weight table (41_tree.md R147, R149, R150, R153). -/

namespace Sys2Proof.Machine

/-! ### The arena after BINIT and any number of merges -/

theorem MergedInto.refl {s : State} (h : Building s.node s.nleaves s.pq) : MergedInto s s :=
  ⟨h, rfl, List.prefix_refl _, rfl, id⟩

namespace MergedInto

variable {s t : State}

/-- The arena begins with BINIT's leaves, in ascending symbol order (R150). -/
theorem take_leaves (h : MergedInto (loadQueue s) t) :
    t.node.take (participants s.weight).length = (participants s.weight).map (leafOf s.weight) := by
  rw [← loadQueue_node_length, ← List.prefix_iff_eq_take.1 h.grows, (loadQueue_spec s).node]

/-- After them come internal nodes (R150). -/
theorem drop_internal (h : MergedInto (loadQueue s) t) :
    ∀ m ∈ t.node.drop (participants s.weight).length, m.isLeaf = false := by
  intro m hm
  obtain ⟨i, hi⟩ := List.mem_iff_getElem?.1 hm
  rw [List.getElem?_drop, ← (loadQueue_spec s).nleaves] at hi
  rw [← Bool.not_eq_true, h.building.forest.leavesFirst _ m hi]
  omega

/-- What BINIT and merges leave unchanged. -/
theorem load_frame (h : MergedInto (loadQueue s) t) :
    t = { s with node := t.node, nleaves := (participants s.weight).length, pq := t.pq, tstate := .tBuilding,
                 code := emptyTable, tableValid := false, decDone := false } := by
  rw [← (loadQueue_spec s).nleaves, h.frame, (loadQueue_spec s).frame]

theorem err_frame (h : MergedInto (loadQueue s) t) :
    t.errCode = s.errCode ∧ t.errOpc = s.errOpc ∧ t.errByte = s.errByte := by
  rw [h.load_frame]
  exact ⟨rfl, rfl, rfl⟩

end MergedInto

/-! ### BUILD depends on the total weight -/

/-- With no participant BINIT queues nothing. -/
theorem loadQueue_pq_nil {s : State} (h : participants s.weight = []) : (loadQueue s).pq = [] := by
  have hperm := loadQueue_pq_perm s
  rw [(loadQueue_spec s).node, h] at hperm
  exact List.perm_nil.1 hperm

theorem totalWeight_of_no_participant {s : State} (h : participants s.weight = []) : totalWeight s.weight = 0 := by
  rw [← (loadQueue_spec s).sum, loadQueue_pq_nil h, weightSum_nil]

/-- BUILD with no participant, where no merge is made. -/
theorem execBuild_no_participant {s : State} (h : participants s.weight = []) :
    ∃ t, MergedInto (loadQueue s) t ∧ t.node = [] ∧ t.pq = [] ∧ execBuild s = .next { t with tstate := .tEmpty } := by
  have hload := loadQueue_spec s
  have hq := loadQueue_pq_nil h
  have hloop := mergeLoop_of_length_le_one (loadQueue s).pq.length (s := loadQueue s) (by simp [hq])
  exact ⟨loadQueue s, .refl hload.building, by rw [hload.node, h, List.map_nil], hq,
    finishTree_empty (encode .build) (loadQueue_tstate s) hloop hq⟩

/-- Settles O30, from the three ways in which BUILD can end. -/
theorem buildDependsOnTheTotalWeight : Obligations.BuildDependsOnTheTotalWeight := by
  unfold Obligations.BuildDependsOnTheTotalWeight
  intro s
  rcases execBuild_spec s with ⟨hps, -⟩ | ⟨hn, hlt, t, hm, hq, hlen, e⟩ | ⟨hn, hle, t, hm, e⟩
  · obtain ⟨t, hm, hnode, hq, e⟩ := execBuild_no_participant hps
    obtain ⟨hcode, hopc, hbyte⟩ := hm.err_frame
    have hzero := totalWeight_of_no_participant hps
    exact ⟨_, e, by rw [hm.load_frame], hm.take_leaves, hm.drop_internal, fun _ => ⟨hcode, hopc, hbyte, hq,
      fun _ => ⟨rfl, hnode⟩, fun hne => absurd hps hne⟩, fun hle => by omega⟩
  · obtain ⟨hcode, hopc, hbyte⟩ := hm.err_frame
    have hroot : (wt t.node (2 * (participants s.weight).length - 2)).toNat = totalWeight s.weight := by
      rw [← (loadQueue_spec s).sum, ← hm.sum, hq, weightSum_cons, weightSum_nil, Nat.add_zero]
    exact ⟨_, e, by rw [hm.load_frame], hm.take_leaves, hm.drop_internal, fun _ => ⟨hcode, hopc, hbyte, rfl,
      fun hps => by simp [hps] at hn, fun _ => ⟨rfl, Nat.eq_sub_of_add_eq hlen, hroot⟩⟩,
      fun hle => absurd hle (Nat.not_le.2 hlt)⟩
  · have hstate : t.tstate = .tBuilding := by rw [hm.load_frame]
    exact ⟨_, e, by rw [hm.load_frame]; rfl, hm.take_leaves, hm.drop_internal,
      fun hlt => absurd hle (Nat.not_le.2 hlt), fun _ => ⟨hn, hstate, rfl, rfl, rfl⟩⟩

end Sys2Proof.Machine
end

section
/-! PROOF. The build is a function of the weight table alone (41_tree.md R149). -/

namespace Sys2Proof.Machine

/-! ### States that a build does not tell apart -/

/-- The two states hold the same tree, queue and code table. -/
structure SameTree (s s' : State) : Prop where
  node : s.node = s'.node
  pq : s.pq = s'.pq
  nleaves : s.nleaves = s'.nleaves
  tstate : s.tstate = s'.tstate
  code : s.code = s'.code

/-- The queue's order is strict (R148, R149). -/
theorem Before.asymm {node : List Node} {i j : Nat} (h : Before node i j) : ¬ Before node j i := by
  simp only [Before, BitVec.lt_def, ← BitVec.toNat_inj] at h ⊢
  omega

/-- BINIT's arena is given by the weights, and its queue is the one list of the nodes in the queue's order. -/
theorem sameTree_loadQueue {s s' : State} (h : s.weight = s'.weight) : SameTree (loadQueue s) (loadQueue s') := by
  have hload := loadQueue_spec s
  have hload' := loadQueue_spec s'
  have hnode : (loadQueue s).node = (loadQueue s').node := by rw [hload.node, hload'.node, h]
  have hperm := loadQueue_pq_perm s'
  have hsorted := hload'.building.sorted
  rw [← hnode] at hperm hsorted
  refine ⟨hnode, ?_, ?_, rfl, (loadQueue_code s).trans (loadQueue_code s').symm⟩
  · exact ((loadQueue_pq_perm s).trans hperm.symm).eq_of_pairwise (fun i j _ _ hij hji => absurd hji hij.asymm)
      hload.building.sorted hsorted
  · rw [hload.nleaves, hload'.nleaves, h]

/-- Two runs of the merge loop that end alike. -/
inductive EndAlike : Except (HufError × State) State → Except (HufError × State) State → Prop where
  | ok {t t' : State} : SameTree t t' → EndAlike (.ok t) (.ok t')
  | error {e : HufError} {t t' : State} : SameTree t t' → EndAlike (.error (e, t)) (.error (e, t'))

namespace SameTree

variable {s s' : State}

theorem mergeOne_ok (h : SameTree s s') {t : State} (hm : mergeOne s = .ok t) :
    ∃ t', mergeOne s' = .ok t' ∧ SameTree t t' := by
  obtain ⟨a, b, rest, hq, hlt, rfl⟩ := Machine.mergeOne_ok hm
  refine ⟨mergedState s' a b rest, ?_, ?_, ?_, h.nleaves, h.tstate, h.code⟩
  · rw [mergeOne_cons (h.pq ▸ hq), ← h.node, if_neg (Nat.not_le.2 hlt)]
  · simp only [mergedState, h.node]
  · simp only [mergedState, h.node]

theorem mergeOne_error (h : SameTree s s') {e : HufError} (hm : mergeOne s = .error e) : mergeOne s' = .error e := by
  rcases Machine.mergeOne_error hm with ⟨rfl, hlen⟩ | ⟨rfl, a, b, rest, hq, hle⟩
  · exact mergeOne_short (h.pq ▸ hlen)
  · rw [mergeOne_cons (h.pq ▸ hq), ← h.node, if_pos hle]

theorem mergeLoop_alike (h : SameTree s s') (fuel : Nat) : EndAlike (mergeLoop fuel s) (mergeLoop fuel s') := by
  induction fuel generalizing s s' with
  | zero => exact .ok h
  | succ fuel ih =>
    simp only [mergeLoop, ← h.pq]
    split
    · cases hm : mergeOne s with
      | ok t =>
        obtain ⟨t', hm', ht⟩ := h.mergeOne_ok hm
        rw [hm']
        exact ih ht
      | error e =>
        rw [h.mergeOne_error hm]
        exact .error h
    · exact .ok h

/-- FINISH's pseudocode in BUILDING ends alike. -/
theorem finishTree_alike (h : SameTree s s') (hs : s.tstate = .tBuilding) (w : Word) {t t' : State}
    (ht : finishTree w s = .next t) (ht' : finishTree w s' = .next t') : SameTree t t' := by
  have hs' : s'.tstate = .tBuilding := h.tstate ▸ hs
  have halike := h.mergeLoop_alike s.pq.length
  generalize hl : mergeLoop s.pq.length s = l, hl' : mergeLoop s.pq.length s' = l' at halike
  rw [h.pq] at hl'
  cases halike with
  | @ok u u' hu =>
    cases hq : u.pq with
    | nil =>
      cases (finishTree_empty w hs hl hq).symm.trans ht
      cases (finishTree_empty w hs' hl' (hu.pq ▸ hq)).symm.trans ht'
      exact ⟨hu.node, hu.pq, hu.nleaves, rfl, hu.code⟩
    | cons r rest =>
      cases (finishTree_root w hs hl hq).symm.trans ht
      cases (finishTree_root w hs' hl' (hu.pq ▸ hq)).symm.trans ht'
      exact ⟨hu.node, rfl, hu.nleaves, rfl, hu.code⟩
  | error hu =>
    cases (finishTree_error w hs hl).symm.trans ht
    cases (finishTree_error w hs' hl').symm.trans ht'
    exact ⟨hu.node, hu.pq, hu.nleaves, hu.tstate, hu.code⟩

end SameTree

/-- Settles O31: BINIT's tree depends on the weights only, and FINISH's pseudocode on that tree only. -/
theorem buildSeesOnlyTheWeights : Obligations.BuildSeesOnlyTheWeights := by
  unfold Obligations.BuildSeesOnlyTheWeights
  intro s s' t t' hw ht ht'
  have h := (sameTree_loadQueue hw).finishTree_alike (loadQueue_tstate s) (encode .build) ht ht'
  exact ⟨h.node, h.pq, h.nleaves, h.tstate, h.code⟩

end Sys2Proof.Machine
end

section
/-! PROOF. The built code is optimal (41_tree.md R151, 42_codetable.md R182 (e)): its lengths are the depths of the leaves in
the greedy tree, and words of which none begins with another have lengths that satisfy the Kraft inequality. -/

namespace Sys2Proof.Machine

/-! ### The participants by index -/

/-- The symbol of the leaf that BINIT makes at an index (R150). -/
def participantAt (weight : ByteTable Word) (i : Nat) : Byte := (participants weight).getD i 0#8

theorem participants_nodup (weight : ByteTable Word) : (participants weight).Nodup := symbols_nodup.filter _

theorem participantAt_mem {weight : ByteTable Word} {i : Nat} (hi : i < (participants weight).length) :
    participantAt weight i ∈ participants weight := by
  rw [participantAt, List.getD_eq_getElem _ _ hi]
  exact List.getElem_mem hi

theorem participantAt_inj {weight : ByteTable Word} {i j : Nat} (hi : i < (participants weight).length)
    (hj : j < (participants weight).length) (h : participantAt weight i = participantAt weight j) : i = j := by
  rw [participantAt, participantAt, List.getD_eq_getElem _ _ hi, List.getD_eq_getElem _ _ hj] at h
  exact (participants_nodup weight).getElem_inj_iff.1 h

theorem map_participantAt (weight : ByteTable Word) :
    (List.range (participants weight).length).map (participantAt weight) = participants weight := by
  refine List.ext_getElem (by simp) fun i _ hi => ?_
  rw [List.getElem_map, List.getElem_range, participantAt, List.getD_eq_getElem _ _ hi]

theorem loadQueue_leaf {s : State} {i : Nat} (hi : i < (participants s.weight).length) :
    (loadQueue s).node[i]? = some (leafOf s.weight (participantAt s.weight i)) := by
  rw [(loadQueue_spec s).node, List.getElem?_map, List.getElem?_eq_getElem hi, Option.map_some, participantAt,
    List.getD_eq_getElem _ _ hi]

theorem mem_loadQueue_pq {s : State} {i : Nat} : i ∈ (loadQueue s).pq ↔ i < (participants s.weight).length := by
  rw [(loadQueue_pq_perm s).mem_iff, List.mem_range, loadQueue_node_length]

/-! ### The total weighted length as a cost of the queue -/

/-- A symbol that does not participate weighs nothing. -/
theorem sum_symbols_eq_sum_participants (weight : ByteTable Word) (len : Byte → Nat) :
    (symbols.map fun x => (readTable weight x).toNat * len x).sum =
      ((participants weight).map fun x => (readTable weight x).toNat * len x).sum := by
  rw [participants, ← List.sum_map_filter_add_sum_map_filter_not (fun x => 0#32 < readTable weight x)]
  refine Nat.add_eq_left.2 (List.sum_eq_zero fun k hk => ?_)
  obtain ⟨x, hx, rfl⟩ := List.mem_map.1 hk
  simp only [List.mem_filter, decide_eq_true_eq, BitVec.lt_def, BitVec.toNat_ofNat, Nat.zero_mod, Nat.not_lt] at hx
  rw [Nat.le_zero.1 hx.2, Nat.zero_mul]

/-- The total weighted length of an assignment of lengths is the cost of the queue that BINIT makes. -/
theorem sum_symbols_eq_nodeCost (s : State) (len : Byte → Nat) :
    (symbols.map fun x => (s.weightOf x).toNat * len x).sum =
      nodeCost (loadQueue s).node (loadQueue s).pq fun i => len (participantAt s.weight i) := by
  have hperm := (loadQueue_pq_perm s).map fun i => (wt (loadQueue s).node i).toNat * len (participantAt s.weight i)
  rw [nodeCost, hperm.sum_eq, loadQueue_node_length]
  refine (sum_symbols_eq_sum_participants s.weight len).trans ?_
  rw [← map_participantAt s.weight, List.map_map, map_participantAt]
  refine congrArg List.sum (List.map_congr_left fun i hi => ?_)
  rw [wt_of_getElem? (loadQueue_leaf (List.mem_range.1 hi))]
  rfl

/-! ### Lengths of codes -/

/-- Words for two or more participants of which none begins with another satisfy the Kraft inequality over BINIT's queue. -/
theorem kraftLe_loadQueue {s : State} {word : Byte → List Bool} (hn : 2 ≤ (participants s.weight).length)
    (hfree : ∀ x ∈ participants s.weight, ∀ y ∈ participants s.weight, x ≠ y → ¬ word x <+: word y) :
    KraftLe (loadQueue s).pq.toFinset fun i => (word (participantAt s.weight i)).length := by
  refine kraftLe_of_prefixFree (word := fun i => word (participantAt s.weight i)) ?_ fun i hi j hj hne => ?_
  · rw [List.toFinset_card_of_nodup (loadQueue_spec s).building.forest.held_nodup, (loadQueue_pq_perm s).length_eq,
      List.length_range, loadQueue_node_length]
    exact hn
  · rw [List.mem_toFinset, mem_loadQueue_pq] at hi hj
    exact hfree _ (participantAt_mem hi) _ (participantAt_mem hj) fun h => hne (participantAt_inj hi hj h)

/-- In a tree of two or more leaves a code is as long as its leaf is deep (R180). -/
theorem treeTable_length {node : List Node} {n root i : Nat} {t : ByteTable (List Bool)} {x : Byte} {w : Word}
    (h : Forest node n [root]) (hn : 2 ≤ n) (ht : treeTable node root = .ok t) (hi : node[i]? = some (.leaf x w)) :
    (readTable t x).length = depthOf node root i := by
  obtain ⟨hlen, hroot⟩ := h.root_eq
  have hleaf : i < n := (h.leavesFirst i _ hi).1 rfl
  obtain ⟨p, hp⟩ := h.reachable (List.getElem?_eq_some_iff.1 hi).1
  obtain ⟨t', ht', hcode, -⟩ := treeTable_spec h
  cases ht.symm.trans ht'
  rw [depthOf_eq h hp, hcode x p ⟨i, w, hi, .inr ⟨by omega, hp⟩⟩]

/-- BUILD of a total weight below 2^32 runs the merge loop to its end and takes the last node as the root. -/
theorem execBuild_merges {s : State} (hn : participants s.weight ≠ []) (hlt : totalWeight s.weight < 2 ^ 32) :
    ∃ t r, mergeLoop (loadQueue s).pq.length (loadQueue s) = .ok t ∧ MergedInto (loadQueue s) t ∧ t.pq = [r] ∧
      execBuild s = .next { t with pq := [], tstate := .tReady r r } := by
  have hload := loadQueue_spec s
  have hs := loadQueue_tstate s
  rcases mergeLoop_spec (loadQueue s).pq.length (loadQueue s) hload.building (Nat.le_succ _) with
    ⟨t, e, hm, hlen⟩ | ⟨t, a, b, rest, e, hm, hq, hle⟩
  · have hne : (loadQueue s).pq ≠ [] := List.ne_nil_of_mem (a := 0) (mem_loadQueue_pq.2 (List.length_pos_iff.2 hn))
    obtain ⟨r, hr⟩ := List.length_eq_one_iff.1 (le_antisymm hlen (List.length_pos_iff.2 (hm.nonempty hne)))
    exact ⟨t, r, e, hm, hr, finishTree_root _ hs e hr⟩
  · have hsum := hm.sum
    rw [hq, hload.sum, weightSum_cons, weightSum_cons] at hsum
    omega

/-- Settles O36: the greedy merges cost least among all lengths that satisfy the Kraft inequality. -/
theorem builtCodeIsOptimal : Obligations.BuiltCodeIsOptimal := by
  unfold Obligations.BuiltCodeIsOptimal
  intro s t u word hn hlt hbuild hgentab hfree
  have hne : participants s.weight ≠ [] := List.ne_nil_of_length_pos (by omega)
  obtain ⟨v, r, hloop, hm, hq, e⟩ := execBuild_merges hne hlt
  cases e.symm.trans hbuild
  have hforest : Forest v.node (participants s.weight).length [r] := by
    rw [← hq, ← (loadQueue_spec s).nleaves]
    exact hm.building.forest
  obtain ⟨table, htable, -⟩ := treeTable_spec hforest
  cases (execGentab_ready (s := { v with pq := [], tstate := .tReady r r }) rfl htable).symm.trans hgentab
  have hbuilding := (loadQueue_spec s).building
  have hgreedy := mergeLoop_optimal _ hbuilding (Nat.le_succ _) hloop hq hm.grows (depths_depthOf hforest) _
    (kraftLe_loadQueue hn hfree)
  rw [sum_symbols_eq_nodeCost, sum_symbols_eq_nodeCost s fun x => (word x).length]
  refine le_trans (le_of_eq ?_) hgreedy
  refine congrArg List.sum (List.map_congr_left fun i hi => congrArg _ ?_)
  obtain ⟨more, hmore⟩ := hm.grows
  have hleaf := loadQueue_leaf (mem_loadQueue_pq.1 hi)
  refine treeTable_length hforest hn htable (w := readTable s.weight (participantAt s.weight i)) ?_
  rw [← hmore, List.getElem?_append_left (hbuilding.forest.held_lt hi), hleaf]
  rfl

end Sys2Proof.Machine
end

section
/-! PROOF. The code table (42_codetable.md R181 to R183): what GENTAB makes of the table, and what the invariant says of
the entries of a table: each is the code of a leaf, so that the laws of codes give their order, their lengths and their
Kraft sum. -/

namespace Sys2Proof.Machine

/-! ### Entries and leaves -/

theorem isCode_leaf {node : List Node} {root : Nat} {x : Byte} {p : List Bool} (h : IsCode node root x p) :
    ∃ (i : Nat) (v : Word), node[i]? = some (.leaf x v) := by
  obtain ⟨i, v, hi, -⟩ := h
  exact ⟨i, v, hi⟩

/-- The symbols with an entry are exactly the leaves' (R182 (a), (b)). -/
theorem treeTable_eq_nil_iff {node : List Node} {n root : Nat} (h : Forest node n [root]) {t : ByteTable (List Bool)}
    (ht : treeTable node root = .ok t) (x : Byte) :
    readTable t x = [] ↔ ∀ (i : Nat) v, node[i]? ≠ some (.leaf x v) := by
  rcases treeTable_entry h ht x with ⟨hnil, hno⟩ | hcode
  · exact iff_of_true hnil hno
  · obtain ⟨i, v, hi⟩ := isCode_leaf hcode
    exact iff_of_false (isCode_ne_nil hcode) fun hno => hno i v hi

theorem codeLen_eq_zero_iff {s : State} {x : Byte} : s.codeLen x = 0 ↔ s.codeOf x = [] := List.length_eq_zero_iff

theorem codeOf_eq_nil_of_emptyTable {s : State} (h : s.code = emptyTable) (x : Byte) : s.codeOf x = [] := by
  rw [State.codeOf, h, emptyTable, readTable_fill]

/-- A valid table of a READY tree is that tree's (R30). -/
theorem State.Inv.treeTable_code {s : State} (h : s.Inv) (hv : s.tableValid = true) {r c : Nat}
    (hs : s.tstate = .tReady r c) : treeTable s.node r = .ok s.code := by
  rcases h.validTable hv with ⟨he, -⟩ | ⟨r', c', hr, ht⟩
  · cases he.symm.trans hs
  · cases hr.symm.trans hs
    exact ht

/-- An entry is there in READY only, and is the code of its symbol's leaf. -/
theorem State.Inv.isCode_codeOf {s : State} (h : s.Inv) {x : Byte} (hx : s.codeLen x ≠ 0) :
    ∃ r c, s.tstate = .tReady r c ∧ IsCode s.node r x (s.codeOf x) := by
  rw [ne_eq, codeLen_eq_zero_iff] at hx
  cases hv : s.tableValid with
  | false => exact absurd (codeOf_eq_nil_of_emptyTable (h.noTable hv) x) hx
  | true =>
    rcases h.validTable hv with ⟨-, hc⟩ | ⟨r, c, hs, ht⟩
    · exact absurd (codeOf_eq_nil_of_emptyTable hc x) hx
    · exact ⟨r, c, hs, (treeTable_entry (ready_arena h hs) ht x).resolve_left fun hno => hx hno.1⟩

/-- Under the invariant a valid table has an entry for exactly the leaves' symbols, in EMPTY as in READY. -/
theorem State.Inv.codeLen_ne_zero_iff {s : State} (h : s.Inv) (hv : s.tableValid = true) (x : Byte) :
    s.codeLen x ≠ 0 ↔ ∃ (i : Nat) (v : Word), s.node[i]? = some (.leaf x v) := by
  refine ⟨fun hx => ?_, fun ⟨i, v, hi⟩ => ?_⟩
  · obtain ⟨r, c, -, hcode⟩ := h.isCode_codeOf hx
    exact isCode_leaf hcode
  · rw [ne_eq, codeLen_eq_zero_iff]
    intro hnil
    rcases h.validTable hv with ⟨he, -⟩ | ⟨r, c, hs, ht⟩
    · simp [h.phase.1 (.inr he)] at hi
    · exact (treeTable_eq_nil_iff (ready_arena h hs) ht x).1 hnil i v hi

/-! ### The statements -/

/-- Settles O32: in READY the traversal answers the table of the leaves' codes; elsewhere GENTAB does not look at the
tree. -/
theorem gentabFillsTheTable : Obligations.GentabFillsTheTable := by
  unfold Obligations.GentabFillsTheTable
  refine ⟨by decide, fun s r c h hs => ?_, fun s hs => ?_, fun s hs => ?_⟩
  · have hf := ready_arena h hs
    obtain ⟨table, ht, hcode, -⟩ := treeTable_spec hf
    exact ⟨_, execGentab_ready hs ht, rfl, hcode, treeTable_eq_nil_iff hf ht, rfl⟩
  · exact ⟨_, execGentab_empty hs, rfl, codeOf_eq_nil_of_emptyTable rfl, rfl⟩
  · have hun : s.tstate.unbuilt := by rcases hs with hs | hs <;> simp [hs, TreeState.unbuilt]
    exact execGentab_unbuilt hun

/-- Settles O33: two entries are the codes of two leaves, and a path to a leaf does not go on. -/
theorem codesArePrefixFree : Obligations.CodesArePrefixFree := by
  unfold Obligations.CodesArePrefixFree
  refine fun s h hv => ⟨h.codeLen_ne_zero_iff hv, fun x y hne hx hy hpre => hne ?_⟩
  obtain ⟨r, c, hs, hcx⟩ := h.isCode_codeOf hx
  obtain ⟨r', c', hs', hcy⟩ := h.isCode_codeOf hy
  cases hs.symm.trans hs'
  exact isCode_prefix_free hcx hcy hpre

/-- Settles O34: an entry is the code of a leaf in a tree of `nleaves` leaves, at most 256. -/
theorem codeLengthsAreBounded : Obligations.CodeLengthsAreBounded := by
  unfold Obligations.CodeLengthsAreBounded
  intro s x h hx
  obtain ⟨r, c, hs, hcode⟩ := h.isCode_codeOf hx
  have hf := ready_arena h hs
  obtain ⟨hpos, hle⟩ : 1 ≤ s.codeLen x ∧ s.codeLen x ≤ max 1 (s.nleaves - 1) := isCode_length hf hcode
  obtain ⟨hsize, -⟩ := hf.root_eq
  have hmax : s.nleaves ≤ 256 := hf.leafCount.2
  omega

/-- Settles O35: the table is that of the tree, and its Kraft sum is the sum over the tree. -/
theorem kraftSumIsExact : Obligations.KraftSumIsExact := by
  unfold Obligations.KraftSumIsExact
  intro s r c h hv hs
  have hshare : ∀ x, (if s.codeLen x = 0 then 0 else 2 ^ (255 - s.codeLen x)) = kraftShare (s.codeOf x) := fun x => by
    simp only [codeLen_eq_zero_iff]
    rfl
  simp only [hshare]
  exact treeTable_kraft (ready_arena h hs) (h.treeTable_code hv hs)

end Sys2Proof.Machine
end

section
/-! PROOF. The bit-stream encoder (43_encoder.md R200, R201): what one ENC emits, and how much a run of ENC commands
emits. -/

namespace Sys2Proof.Machine

/-! ### One ENC -/

/-- A word of format B (R92), bit by bit: the opcode at bit 24 and the operand at bit 16. -/
theorem commandWord_formatB (opc b : Byte) : commandWord opc b 0#16 = (opc ++ 0#24) ||| (b.setWidth 32 <<< 16) := by
  refine BitVec.eq_of_getElem_eq fun i hi => ?_
  simp only [commandWord]
  grind

theorem digitOfBit_eq (b : Bool) : digitOfBit b = if b then 0x31#8 else 0x30#8 := rfl

/-- Settles O37: the digits are the images of the code's bits; the table alone decides whether there is an entry. -/
theorem encEmitsTheCode : Obligations.EncEmitsTheCode := by
  unfold Obligations.EncEmitsTheCode
  refine ⟨commandWord_formatB 0x40#8, fun s x hx => ?_, fun s x hx => ?_⟩
  · refine ⟨_, (s.codeOf x).map digitOfBit, execEnc_entry hx, rfl, List.length_map .., fun k hk => ?_, rfl⟩
    have hk' : k < (s.codeOf x).length := hk
    simp [hk', digitOfBit_eq]
  · obtain ⟨hopc, hbyte, -⟩ := Laws.Encoding.enc x
    refine (execEnc_unknown hx).trans ?_
    rw [State.recordError, hopc, hbyte]
    rfl

/-! ### A run of ENC commands -/

/-- The opcode of ENC is none of the three that pass the gate (R273). -/
theorem passesGate_enc (x : Byte) : passesGate (encode (.enc x)) = false := by
  obtain ⟨hopc, -, -⟩ := Laws.Encoding.enc x
  refine Bool.eq_false_iff.2 fun hw => ?_
  simp only [passesGate, Bool.or_eq_true, beq_iff_eq, or_assoc] at hw
  rcases hw with hw | hw | hw <;> exact absurd (hw ▸ hopc) (by decide)

/-- Behind a pending error, words that do not pass the gate are discarded (R273). -/
theorem runWords_pending {s : State} {ws : List Word} (hgate : ∀ w ∈ ws, passesGate w = false) (h : s.errCode ≠ 0#4) :
    runWords ws s = .next s := by
  induction ws with
  | nil => rfl
  | cons w ws ih =>
    obtain ⟨hw, hws⟩ := List.forall_mem_cons.1 hgate
    rw [runWords_cons_next (perform_pending h hw), ih hws]

/-- ENC commands that raise no error found an entry for each of their symbols. -/
theorem codeLen_ne_zero_of_runWords_enc {s t : State} {xs : List Byte} (hs : s.errCode = 0#4)
    (hrun : runWords (xs.map fun x => encode (.enc x)) s = .next t) (ht : t.errCode = 0#4) :
    ∀ x ∈ xs, s.codeLen x ≠ 0 := by
  induction xs generalizing s with
  | nil => simp
  | cons x xs ih =>
    have hp : perform (encode (.enc x)) s = execEnc x s := perform_encode (.enc x) hs
    rw [List.map_cons] at hrun
    by_cases hx : s.codeLen x = 0
    · have hcode := HufError.unknownSymbol.code_ne_zero
      have hgate : ∀ w ∈ xs.map fun x => encode (.enc x), passesGate w = false :=
        List.forall_mem_map.2 fun y _ => passesGate_enc y
      rw [runWords_cons_next (hp.trans (execEnc_unknown hx)), runWords_pending hgate hcode] at hrun
      cases hrun
      exact absurd ht hcode
    · rw [runWords_cons_next (hp.trans (execEnc_entry hx))] at hrun
      exact List.forall_mem_cons.2 ⟨hx, ih (s := s.emit ((s.codeOf x).map digitOfBit)) hs hrun⟩

/-- Settles O38: with an entry for every symbol, the run emits the digits of the codes one after the other. -/
theorem encodedLengthIsTheSum : Obligations.EncodedLengthIsTheSum := by
  unfold Obligations.EncodedLengthIsTheSum
  intro s t xs hs hrun ht
  have hentries := codeLen_ne_zero_of_runWords_enc hs hrun ht
  cases (runWords_enc xs hs hentries).symm.trans hrun
  refine ⟨?_, rfl⟩
  calc (s.emit ((xs.flatMap s.codeOf).map digitOfBit)).out.length
    _ = s.out.length + (xs.flatMap s.codeOf).length := by rw [State.emit_out, List.length_append, List.length_map]
    _ = s.out.length + (xs.map s.codeLen).sum := by rw [List.length_flatMap]; rfl

end Sys2Proof.Machine
end

section
/-! PROOF. The bit-stream decoder (44_decoder.md R220 to R224): what DSTART, DEC and DEND answer in each tree state, and the
round trip of a byte sequence through a tree built from its own counts. -/

namespace Sys2Proof.Machine

/-! ### One command -/

/-- The record of an error, by the fields of the word it is raised for (R272). -/
theorem recordError_fields {s : State} {w : Word} {opc b : Byte} (e : HufError) (hopc : opcField w = opc) (hbyte : byteField w = b) :
    s.recordError e w = { s with errCode := e.code, errOpc := opc, errByte := b } := by
  rw [State.recordError, hopc, hbyte]

theorem recordError_dec (s : State) (e : HufError) (d : Byte) :
    s.recordError e (encode (.dec d)) = { s with errCode := e.code, errOpc := 0x51#8, errByte := d } := by
  obtain ⟨hopc, hbyte, -⟩ := Laws.Encoding.dec d
  exact recordError_fields e hopc hbyte

theorem recordError_dstart (s : State) (e : HufError) :
    s.recordError e (encode .dstart) = { s with errCode := e.code, errOpc := 0x50#8, errByte := 0#8 } := by
  obtain ⟨hopc, hbyte, -⟩ := Laws.Encoding.dstart
  exact recordError_fields e hopc hbyte

theorem recordError_dend (s : State) (e : HufError) :
    s.recordError e (encode .dend) = { s with errCode := e.code, errOpc := 0x52#8, errByte := 0#8 } := by
  obtain ⟨hopc, hbyte, -⟩ := Laws.Encoding.dend
  exact recordError_fields e hopc hbyte

theorem TreeState.unbuilt_iff (ts : TreeState) : ts.unbuilt ↔ ts = .tNone ∨ ts = .tBuilding := by
  cases ts <;> simp [TreeState.unbuilt]

theorem bitOfDigit_eq_none {d : Byte} (h0 : d ≠ 0x30#8) (h1 : d ≠ 0x31#8) : bitOfDigit d = none := by
  simp [bitOfDigit, Config.digit0, Config.digit1, h0, h1]

theorem exists_digitOfBit {d : Byte} (h : d = 0x30#8 ∨ d = 0x31#8) : ∃ b, d = digitOfBit b := by
  rcases h with rfl | rfl
  · exact ⟨false, rfl⟩
  · exact ⟨true, rfl⟩

/-- The child a digit selects (R24, R221). -/
theorem childOf_digit (b : Bool) (c0 c1 : Nat) : childOf b c0 c1 = if digitOfBit b = 0x30#8 then c0 else c1 := by
  cases b <;> rfl

/-- Settles O39, by the tree state. -/
theorem dstartPutsTheCursorAtTheRoot : Obligations.DstartPutsTheCursorAtTheRoot := by
  unfold Obligations.DstartPutsTheCursorAtTheRoot
  refine ⟨by decide, fun s r c hs => execDstart_ready hs, fun s hs => execDstart_empty hs, fun s hs => ?_⟩
  exact (execDstart_unbuilt ((TreeState.unbuilt_iff _).2 hs)).trans (congrArg _ (recordError_dstart s .sequenceError))

/-- Settles O41, by the tree state and, in READY, the place of the cursor. -/
theorem dendMarksACompleteDecode : Obligations.DendMarksACompleteDecode := by
  unfold Obligations.DendMarksACompleteDecode
  refine ⟨by decide, fun s r hs => execDend_root hs, fun s r c hs hc => ?_, fun s hs => execDend_empty hs, fun s hs => ?_⟩
  · exact (execDend_mid hs hc).trans (congrArg _ (recordError_dend s .truncatedStream))
  · exact (execDend_unbuilt ((TreeState.unbuilt_iff _).2 hs)).trans (congrArg _ (recordError_dend s .sequenceError))

/-- In a single-leaf tree the walk emits the leaf's symbol, wherever the cursor is and whatever the bit (R221). -/
theorem walkBit_single {s : State} {r : Nat} {x : Byte} {w : Word} (b : Bool) (c : Nat) (h : s.node[r]? = some (.leaf x w)) :
    walkBit b r c s = .next (s.emit [x]) := by
  unfold walkBit
  rw [h]

/-- Settles O40: the errors by the tree state and the digit, the walk by the form of the root and of the child. -/
theorem decWalksTheTree : Obligations.DecWalksTheTree := by
  unfold Obligations.DecWalksTheTree
  refine ⟨commandWord_formatB 0x51#8, fun s d hs => ?_, fun s d r c hs h0 h1 => ?_, fun s d r c h hs hd => ?_⟩
  · exact (execDec_noTree hs d).trans (congrArg _ (recordError_dec s .noTree d))
  · exact (execDec_invalid hs (bitOfDigit_eq_none h0 h1)).trans (congrArg _ (recordError_dec s .invalidBit d))
  · obtain ⟨b, rfl⟩ := exists_digitOfBit hd
    have hexec : exec (.dec (digitOfBit b)) s = walkBit b r c { s with decDone := false } :=
      execDec_ready hs (bitOfDigit_digitOfBit b)
    refine ⟨fun x v hx => hexec.trans (walkBit_single b c hx), fun v a0 a1 hroot => ?_⟩
    rcases walkBit_spec b (s := { s with decDone := false }) (ready_arena h hs) (h.cursorPlace r c hs) with
      ⟨x, w, hleaf, -⟩ | ⟨w, c0, c1, hc, hchild⟩
    · cases hroot.symm.trans hleaf
    · refine ⟨w, c0, c1, hc, fun nxt hnxt => ?_⟩
      rw [← childOf_digit] at hnxt
      subst hnxt
      rcases hchild with ⟨x, u, hx, e⟩ | ⟨u, f0, f1, hx, e⟩
      · exact .inl ⟨x, u, hx, hexec.trans e⟩
      · exact .inr ⟨u, f0, f1, hx, hexec.trans e⟩

/-! ### The round trip -/

theorem map_decWord (p : List Bool) : (p.map digitOfBit).map (fun d => encode (.dec d)) = p.map decWord :=
  List.map_map

/-- Settles O42: the entry is the code of its symbol's leaf, and the digits lead from the root to that leaf. -/
theorem decodingACodeGivesItsSymbol : Obligations.DecodingACodeGivesItsSymbol := by
  unfold Obligations.DecodingACodeGivesItsSymbol
  intro s t r x digits h hs _ herr hx henc hout
  obtain ⟨r', c', hs', hcode⟩ := h.isCode_codeOf hx
  cases hs.symm.trans hs'
  cases (execEnc_entry hx).symm.trans henc
  cases List.append_cancel_left hout
  rw [map_decWord]
  exact runWords_code (s := s.emit _) herr hs hcode

/-- A command performed with no error pending, at the head of a run (R64). -/
theorem runWords_command (i : Instr) {s t : State} (ws : List Word) (h : exec i s = .next t) (herr : s.errCode = 0#4) :
    runWords (encode i :: ws) s = runWords ws t :=
  runWords_cons_next ((perform_encode i herr).trans h)

/-- DSTART, one DEC per digit and DEND in READY, for the digits of some codes: the symbols come out, and the decode is
complete (R220 to R222). -/
theorem runWords_decode {s : State} {r c : Nat} (xs : List Byte) (code : Byte → List Bool) (herr : s.errCode = 0#4)
    (hs : s.tstate = .tReady r c) (hc : ∀ x ∈ xs, IsCode s.node r x (code x)) :
    runWords (encode .dstart :: (((xs.flatMap code).map digitOfBit).map fun d => encode (.dec d)) ++ [encode .dend]) s =
      .next { s with tstate := .tReady r r, decDone := true, out := s.out ++ xs } := by
  rw [List.cons_append, runWords_command .dstart _ (execDstart_ready hs) herr, map_decWord, runWords_append,
    runWords_codes (s := { s with tstate := .tReady r r, decDone := false }) xs code herr rfl rfl hc]
  have hend := execDend_root (s := { s with tstate := .tReady r r, decDone := false, out := s.out ++ xs }) rfl
  exact runWords_command .dend [] hend herr

/-- In EMPTY a sequence of no digits is complete (R220, R222). -/
theorem runWords_decode_empty {s : State} (herr : s.errCode = 0#4) (hs : s.tstate = .tEmpty) :
    runWords [encode .dstart, encode .dend] s = .next { s with decDone := true } := by
  have hend := execDend_empty (s := { s with decDone := false }) hs
  exact (runWords_command .dstart _ (execDstart_empty hs) herr).trans (runWords_command .dend [] hend herr)

/-- What BUILD and GENTAB leave of a state with some participant: a tree, and the table of its codes, which has an entry
for every participant. -/
structure Compiled (s u : State) (r : Nat) : Prop where
  errCode : u.errCode = s.errCode
  out : u.out = s.out
  tstate : u.tstate = .tReady r r
  codes : ∀ x ∈ participants s.weight, IsCode u.node r x (u.codeOf x)

/-- Every participant has its leaf after BINIT and any number of merges (R150). -/
theorem MergedInto.leaf_of_participant {s t : State} (h : MergedInto (loadQueue s) t) {x : Byte}
    (hx : x ∈ participants s.weight) : ∃ (i : Nat) (w : Word), t.node[i]? = some (.leaf x w) := by
  have hmem : leafOf s.weight x ∈ t.node.take (participants s.weight).length :=
    h.take_leaves ▸ List.mem_map_of_mem hx
  obtain ⟨i, hi⟩ := List.mem_iff_getElem?.1 (List.mem_of_mem_take hmem)
  exact ⟨i, _, hi⟩

/-- BUILD and GENTAB with some participant and a total weight below 2^32. -/
theorem runWords_compile {s : State} (herr : s.errCode = 0#4) (hn : participants s.weight ≠ [])
    (hlt : totalWeight s.weight < 2 ^ 32) (ws : List Word) :
    ∃ u r, runWords (encode .build :: encode .gentab :: ws) s = runWords ws u ∧ Compiled s u r := by
  obtain ⟨t, r, -, hm, hq, hbuild⟩ := execBuild_merges hn hlt
  obtain ⟨hcode, -, -⟩ := hm.err_frame
  have hout : t.out = s.out := by rw [hm.load_frame]
  have hforest : Forest t.node (loadQueue s).nleaves [r] := hq ▸ hm.building.forest
  obtain ⟨table, htable, -⟩ := treeTable_spec hforest
  have hgentab := execGentab_ready (s := { t with pq := [], tstate := .tReady r r }) rfl htable
  refine ⟨{ t with pq := [], tstate := .tReady r r, code := table, tableValid := true }, r, ?_, hcode, hout, rfl,
    fun x hx => ?_⟩
  · exact (runWords_command .build _ hbuild herr).trans (runWords_command .gentab ws hgentab (hcode.trans herr))
  · obtain ⟨i, w, hi⟩ := hm.leaf_of_participant hx
    exact (treeTable_entry hforest htable x).resolve_left fun hno => hno.2 i w hi

/-- BUILD and GENTAB with no participant end in EMPTY (R146, R181). -/
theorem runWords_compile_empty {s : State} (herr : s.errCode = 0#4) (hn : participants s.weight = []) :
    ∃ u, runWords [encode .build, encode .gentab] s = .next u ∧ u.errCode = 0#4 ∧ u.out = s.out ∧ u.tstate = .tEmpty := by
  obtain ⟨t, hm, -, -, hbuild⟩ := execBuild_no_participant hn
  obtain ⟨hcode, -, -⟩ := hm.err_frame
  have ht : t.errCode = 0#4 := hcode.trans herr
  have hout : t.out = s.out := by rw [hm.load_frame]
  have hgentab := execGentab_empty (s := { t with tstate := .tEmpty }) rfl
  exact ⟨_, (runWords_command .build _ hbuild herr).trans (runWords_command .gentab [] hgentab ht), ht, hout, rfl⟩

section
variable {s : State} {input : List Byte} (hcount : ∀ x, (s.weightOf x).toNat = input.count x)
include hcount

/-- With the counts as weights, the participants are the symbols that occur. -/
theorem mem_participants_of_count (x : Byte) : x ∈ participants s.weight ↔ x ∈ input := by
  have hx : (readTable s.weight x).toNat = input.count x := hcount x
  rw [mem_participants, BitVec.lt_def, hx, ← List.count_pos_iff]
  rfl

/-- With the counts as weights, the total weight is the length. -/
theorem totalWeight_of_count : totalWeight s.weight = input.length := by
  rw [← sum_count input]
  exact congrArg List.sum (List.map_congr_left fun x _ => hcount x)

end

/-- Settles O43: a nonempty input makes a tree with a code for each of its bytes; the empty one makes EMPTY. -/
theorem encodeThenDecodeGivesTheInput : Obligations.EncodeThenDecodeGivesTheInput := by
  unfold Obligations.EncodeThenDecodeGivesTheInput
  intro s input herr hlen hcount
  have hmem := mem_participants_of_count hcount
  cases input with
  | nil =>
    have hn : participants s.weight = [] := List.eq_nil_iff_forall_not_mem.2 fun x hx => List.not_mem_nil ((hmem x).1 hx)
    obtain ⟨u, hcompile, herr', hout, hs⟩ := runWords_compile_empty herr hn
    exact ⟨[], u, _, hcompile, herr', by rw [hout, List.append_nil], runWords_decode_empty herr' hs, herr',
      (List.append_nil _).symm, rfl⟩
  | cons y ys =>
    have hn : participants s.weight ≠ [] := List.ne_nil_of_mem ((hmem y).2 List.mem_cons_self)
    have hlt : totalWeight s.weight < 2 ^ 32 := by rw [totalWeight_of_count hcount]; omega
    obtain ⟨u, r, hcompile, hu⟩ := runWords_compile herr hn hlt ((y :: ys).map fun x => encode (.enc x))
    have herr' : u.errCode = 0#4 := hu.errCode.trans herr
    have hcodes : ∀ x ∈ y :: ys, IsCode u.node r x (u.codeOf x) := fun x hx => hu.codes x ((hmem x).2 hx)
    have hentries : ∀ x ∈ y :: ys, u.codeLen x ≠ 0 := fun x hx =>
      mt codeLen_eq_zero_iff.1 (isCode_ne_nil (hcodes x hx))
    have hdecode := runWords_decode (s := u.emit (((y :: ys).flatMap u.codeOf).map digitOfBit)) (y :: ys) u.codeOf herr'
      hu.tstate hcodes
    exact ⟨_, _, _, hcompile.trans (runWords_enc _ herr' hentries), herr', congrArg (· ++ _) hu.out, hdecode, herr', rfl, rfl⟩

end Sys2Proof.Machine
end

section
/-! PROOF. The control commands (45_control.md R250 to R252): the states NOP, SRST and ECLR leave, and what the registers
read in them. -/

namespace Sys2Proof.Machine

/-- Settles O44: NOP's word passes the gate of a pending error. -/
theorem nopHasNoEffect : Obligations.NopHasNoEffect := by
  unfold Obligations.NopHasNoEffect
  have hword : encode .nop = 0x00000000#32 := by decide
  refine ⟨hword, fun s => ⟨rfl, ?_⟩⟩
  rw [← hword]
  exact perform_encode_of_gate .nop (.inr (.inl rfl))

/-! ### The registers of a cleared block -/

@[simp] theorem field_zero (n lo : Nat) : field lo 0#n = 0#32 := by simp [field]

/-- ERRINFO of a cleared error record (R37). -/
theorem errInfoWord_eq_zero {s : State} (hcode : s.errCode = 0#4) (hopc : s.errOpc = 0#8) (hbyte : s.errByte = 0#8) :
    s.errInfoWord = 0#32 := by
  simp [State.errInfoWord, hcode, hopc, hbyte]

/-- Of STATUS, only BUSY is left. -/
theorem statusWord_clearBlock (s : State) : s.clearBlock.statusWord = field 0 (BitVec.ofBool s.busy) := by
  simp [State.statusWord, State.clearBlock, State.reset, State.busy, State.atRoot, State.err, TreeState.bits]

theorem weightOf_clearBlock (s : State) (x : Byte) : s.clearBlock.weightOf x = 0#32 := readTable_fill ..

theorem codeOf_clearBlock (s : State) (x : Byte) : s.clearBlock.codeOf x = [] := readTable_fill ..

theorem codeLenWord_clearBlock (s : State) (x : Byte) : s.clearBlock.codeLenWord x = 0#32 := by
  rw [State.codeLenWord, State.codeLen, codeOf_clearBlock]
  rfl

theorem codeBitsWord_clearBlock (s : State) (x : Byte) (j : Nat) : s.clearBlock.codeBitsWord x j = 0#32 := by
  rw [State.codeBitsWord, codeOf_clearBlock, List.drop_nil]
  rfl

/-- STATUS stands at the offsets from 4 to 7 (R61). -/
theorem regRead_status (s : State) {off : Offset} (h : 4 ≤ off.toNat ∧ off.toNat ≤ 7) : s.regRead off = s.statusWord := by
  simp (disch := omega) only [State.regRead, if_neg, if_pos]

/-- Every other register of a cleared block reads 0 (R251, R301): each branch of the register map is 0 by its own view. -/
theorem regRead_clearBlock (s : State) {off : Offset} (h : ¬ (4 ≤ off.toNat ∧ off.toNat ≤ 7)) :
    s.clearBlock.regRead off = 0#32 := by
  have herr : s.clearBlock.errInfoWord = 0#32 := errInfoWord_eq_zero rfl rfl rfl
  have htree : s.clearBlock.treeInfoWord = 0#32 := by simp [State.treeInfoWord, State.clearBlock, State.reset]
  have hroot : s.clearBlock.rootWord = 0#32 := rfl
  have hcursor : s.clearBlock.cursorWord = 0#32 := rfl
  have hwt : ∀ i, wt s.clearBlock.node i = 0#32 := fun _ => rfl
  have hnode : ∀ i : Nat, nodeDWord s.clearBlock.node[i]? = 0#32 := fun _ => rfl
  have hpq : ∀ i : Nat, indexWord s.clearBlock.pq[i]? = 0#32 := fun _ => rfl
  simp only [State.regRead, herr, htree, hroot, hcursor, hwt, hnode, hpq, weightOf_clearBlock, codeLenWord_clearBlock,
    codeBitsWord_clearBlock, ite_self]
  by_cases hcmd : off.toNat < 4
  · rw [if_pos hcmd]
  · rw [if_neg hcmd, if_neg (by omega)]

/-- Settles O45: STATUS keeps BUSY alone, which the mask takes away, and every other register reads 0. -/
theorem srstReturnsToReset : Obligations.SrstReturnsToReset := by
  unfold Obligations.SrstReturnsToReset
  refine ⟨by decide, fun s => ⟨s.clearBlock, rfl, rfl, fun off => ?_⟩⟩
  split
  case isTrue h =>
    rw [regRead_status _ h, statusWord_clearBlock]
    cases s.busy <;> decide
  case isFalse h =>
    rw [regRead_clearBlock s h]
    exact BitVec.zero_and

/-- Settles O46: ERRINFO and STATUS.ERR show nothing but the error record. -/
theorem eclrClearsOnlyTheErrorRecord : Obligations.EclrClearsOnlyTheErrorRecord := by
  unfold Obligations.EclrClearsOnlyTheErrorRecord
  refine ⟨by decide, fun s => ⟨s.clearError, rfl, rfl, errInfoWord_eq_zero rfl rfl rfl, ?_⟩⟩
  obtain ⟨-, -, -, -, -, herr, -⟩ := statusWord_fields s.clearError
  exact herr

end Sys2Proof.Machine
end

section
/-! PROOF. Errors (60_exceptions.md R271 to R277): the gate of a pending error, what a word that raises an error leaves, and
that no step raises a second one. -/

namespace Sys2Proof.Machine

/-! ### The idle block -/

theorem hostTurn_of_no_acts {s : State} (h : s.host = []) : s.hostTurn = none := by
  simp only [State.hostTurn, h]

/-- Settles O9: the turn is the block's, which has no command. -/
theorem idleBlockWaits : Obligations.IdleBlockWaits := by
  unfold Obligations.IdleBlockWaits
  intro s hp hh
  simp only [step, hostTurn_of_no_acts hh, blockTurn, hp]

/-! ### The gate of a pending error -/

/-- The words that pass the gate are those of NOP, SRST and ECLR (R273). -/
theorem passesGate_iff (w : Word) : passesGate w = true ↔ w = encode .nop ∨ w = encode .srst ∨ w = encode .eclr := by
  have hnop : encode .nop = 0x00000000#32 := by decide
  have hsrst : encode .srst = 0x01000000#32 := by decide
  have heclr : encode .eclr = 0x02000000#32 := by decide
  simp only [passesGate, Bool.or_eq_true, beq_iff_eq, or_assoc, hnop, hsrst, heclr]

/-- Settles O7: a word is discarded at the gate, or it is the word of one of the three commands that pass it. -/
theorem pendingErrorDiscardsCommands : Obligations.PendingErrorDiscardsCommands := by
  unfold Obligations.PendingErrorDiscardsCommands
  intro s w hturn hp herr
  rw [step_perform hturn hp]
  refine ⟨fun hnop hsrst heclr => ?_, ?_, ?_, ?_⟩
  · exact perform_pending (s := { s with pending := none }) herr (by simp [passesGate, hnop, hsrst, heclr])
  · rintro rfl
    exact perform_encode_of_gate .nop (.inr (.inl rfl))
  · rintro rfl
    exact perform_encode_of_gate .srst (.inr (.inr (.inl rfl)))
  · rintro rfl
    exact perform_encode_of_gate .eclr (.inr (.inr (.inr rfl)))

/-! ### The record of an error -/

theorem HufError.code_le_eight (e : HufError) : e.code ≤ 8#4 := by cases e <;> decide

/-- `Raised s w e t`: word `w` takes state `s` to state `t` and raises `e`. What stands at the raise is `s`, but for the
overflow of FINISH and BUILD, which keeps what they did before it (R275). -/
inductive Raised (s : State) (w : Word) (e : HufError) : State → Prop where
  | atOnce : Raised s w e (s.recordError e w)
  | overflow (u : State) : u.out = s.out → (w = encode .finish ∨ w = encode .build) → e = .weightOverflow →
    Raised s w e (u.recordError e w)

/-- A command that ends with an error where none was pending raised it. -/
theorem Effect.raised {s t : State} {i : Instr} (h : Effect s i t) (hs : s.errCode = 0#4) (ht : t.errCode ≠ 0#4) :
    ∃ e, Raised s (encode i) e t := by
  cases h with
  | raises e => exact ⟨e, .atOnce⟩
  | finishOverflow => exact ⟨_, .overflow _ rfl (.inl rfl) rfl⟩
  | buildOverflow => exact ⟨_, .overflow _ rfl (.inr rfl) rfl⟩
  | srst | eclr => exact absurd rfl ht
  | _ => exact absurd hs ht

/-- A word that ends with an error where none was pending raised it. -/
theorem perform_raised {w : Word} {s t : State} (h : perform w s = .next t) (hs : s.errCode = 0#4) (ht : t.errCode ≠ 0#4) :
    ∃ e, Raised s w e t := by
  rcases perform_cases w s with hd | ⟨_, -, hd⟩ | ⟨i, hi, hd⟩
  · cases hd.symm.trans h
    exact absurd hs ht
  · cases hd.symm.trans h
    exact ⟨_, .atOnce⟩
  · rw [← encode_of_decode hi]
    exact (exec_effect (hd.symm.trans h)).raised hs ht

/-- Settles O47, by the two ways in which a word raises an error. -/
theorem errorsArePrecise : Obligations.ErrorsArePrecise := by
  unfold Obligations.ErrorsArePrecise
  intro s t w hs h ht
  obtain ⟨e, hraised⟩ := perform_raised h hs ht
  cases hraised with
  | atOnce => exact ⟨rfl, e.code_le_eight, rfl, rfl, .inl rfl⟩
  | overflow u hout hw he => exact ⟨hout, e.code_le_eight, rfl, rfl, .inr ⟨hw, congrArg HufError.code he⟩⟩

/-! ### No second error -/

/-- The error record of `t` is that of `s`, or it is clear (R277). -/
def ErrorKeptOrCleared (s t : State) : Prop :=
  (t.errCode = s.errCode ∧ t.errOpc = s.errOpc ∧ t.errByte = s.errByte) ∨
  (t.errCode = 0#4 ∧ t.errOpc = 0#8 ∧ t.errByte = 0#8)

/-- While an error is pending a word is discarded, or it is NOP, SRST or ECLR (R273). -/
theorem perform_of_error (w : Word) {s : State} (h : s.errCode ≠ 0#4) :
    perform w s = .next s ∨ perform w s = .next s.clearBlock ∨ perform w s = .next s.clearError := by
  cases hw : passesGate w with
  | false => exact .inl (perform_pending h hw)
  | true =>
    rcases (passesGate_iff w).1 hw with rfl | rfl | rfl
    · exact .inl (perform_encode_of_gate .nop (.inr (.inl rfl)))
    · exact .inr (.inl (perform_encode_of_gate .srst (.inr (.inr (.inl rfl)))))
    · exact .inr (.inr (perform_encode_of_gate .eclr (.inr (.inr (.inr rfl)))))

theorem perform_error {w : Word} {s t : State} (hs : s.errCode ≠ 0#4) (h : perform w s = .next t) :
    ErrorKeptOrCleared s t := by
  rcases perform_of_error w hs with e | e | e
  all_goals cases e.symm.trans h
  · exact .inl ⟨rfl, rfl, rfl⟩
  · exact .inr ⟨rfl, rfl, rfl⟩
  · exact .inr ⟨rfl, rfl, rfl⟩

theorem blockTurn_error {s t : State} (hs : s.errCode ≠ 0#4) (h : blockTurn s = .next t) : ErrorKeptOrCleared s t := by
  unfold blockTurn at h
  split at h
  · exact perform_error (s := { s with pending := none }) hs h
  · cases h
    exact .inl ⟨rfl, rfl, rfl⟩

/-- A hardware reset clears the error record (R300). -/
theorem hardReset_error (s : State) :
    (hardReset s).errCode = 0#4 ∧ (hardReset s).errOpc = 0#8 ∧ (hardReset s).errByte = 0#8 := by
  unfold hardReset
  cases s.pending <;> exact ⟨rfl, rfl, rfl⟩

theorem hostWrite_error (off : Offset) (data : Word) (s : State) : (hostWrite off data s).errCode = s.errCode ∧
    (hostWrite off data s).errOpc = s.errOpc ∧ (hostWrite off data s).errByte = s.errByte := by
  unfold hostWrite
  split <;> exact ⟨rfl, rfl, rfl⟩

theorem hostRead_error (off : Offset) (s : State) : (hostRead off s).errCode = s.errCode ∧
    (hostRead off s).errOpc = s.errOpc ∧ (hostRead off s).errByte = s.errByte := by
  unfold hostRead
  split <;> exact ⟨rfl, rfl, rfl⟩

theorem hostAct_error {a : HostAct} {s t : State} (h : hostAct a s = .next t) : ErrorKeptOrCleared s t := by
  rcases hostAct_cases a s with e | e | ⟨off, data, e⟩ | ⟨off, e⟩
  all_goals cases e.symm.trans h
  · exact .inr (hardReset_error s)
  · exact .inl (hostWrite_error off data s)
  · exact .inl (hostRead_error off s)

/-- Settles O48, by the cases of a step: an act of the host, or a command word of the block. -/
theorem errorsDoNotNest : Obligations.ErrorsDoNotNest := by
  unfold Obligations.ErrorsDoNotNest
  intro s t hs h
  unfold step at h
  split at h
  · next a rest _ => exact hostAct_error (s := { s with host := rest }) h
  · exact blockTurn_error hs h

end Sys2Proof.Machine
end

section
/-! PROOF. Reset and hazards (70_reset_and_hazards.md R300 to R305): what the reset input leaves, what the registers read
after it, and what the host's writes and reads do while a command is pending. -/

namespace Sys2Proof.Machine

/-! ### Writes and reads while a command is pending -/

/-- Settles O8: a write to CMD waits for a pending command, and performing that command leaves the host's acts. -/
theorem commandWritesAreHeldWhileBusy : Obligations.CommandWritesAreHeldWhileBusy := by
  unfold Obligations.CommandWritesAreHeldWhileBusy
  intro s polled d rest hh
  have hcmd : (HostAct.write .word 0#14 d).isCommand = true := rfl
  refine ⟨fun w hp => ?_, fun hp => ?_⟩
  · have hturn : s.hostTurn = none :=
      hostTurn_of_held (Option.isSome_of_eq_some hp) (by simp [hh, HostReq.waits, hcmd])
    have hstep : step s = perform w { s with pending := none } := step_perform hturn hp
    refine ⟨hstep, fun t ht => ?_⟩
    obtain ⟨hpending, hhost, -⟩ := perform_frame (hstep.symm.trans ht)
    exact ⟨hpending, hhost⟩
  · rw [step_host (hostTurn_of_free hh fun _ => hp), hostAct_write d rfl, hostWrite_command]

/-- While a command is pending a read replies a free value and draws it (R304). -/
theorem hostRead_busy {s : State} {w : Word} (off : Offset) (h : s.pending = some w) :
    hostRead off s =
      { s with replies := s.replies ++ [busyReply off (Config.busyRead s.draws)], draws := s.draws + 1 } :=
  if_pos (Option.isSome_of_eq_some h)

theorem busyReply_of_ne_status {off : Offset} (h : off ≠ 0x0004#14) (v : Word) : busyReply off v = v :=
  if_neg fun hoff => h (BitVec.eq_of_toNat_eq hoff)

/-- Of the reply at STATUS, bit 0 is 1 and the other bits are the free value's (R304). -/
theorem getLsbD_busyReply_status (v : Word) (k : Nat) :
    (busyReply 0x0004#14 v).getLsbD k = (decide (k = 0) || v.getLsbD k) := by
  have hreply : busyReply 0x0004#14 v = v ||| 1#32 := rfl
  rw [hreply, BitVec.getLsbD_or, BitVec.getLsbD_one, Bool.or_comm]
  rfl

/-- Settles O12: an act that does not poll reaches a busy block, and the reply is that of `busyReply`. -/
theorem busyReadsKnowOnlyBusy : Obligations.BusyReadsKnowOnlyBusy := by
  unfold Obligations.BusyReadsKnowOnlyBusy
  intro s w off rest hp hh hal
  have hwaits : HostReq.waits ⟨false, .read .word off⟩ = false := rfl
  have hturn : s.hostTurn = some (.read .word off, rest) :=
    hostTurn_of_free hh fun hw => absurd hw (Bool.eq_false_iff.1 hwaits)
  refine ⟨busyReply off (Config.busyRead s.draws), ?_, fun hoff => busyReply_of_ne_status hoff _, ?_⟩
  · rw [step_host hturn, hostAct_read hal, hostRead_busy off (s := { s with host := rest }) hp]
  · rintro rfl
    refine ⟨by simp [getLsbD_busyReply_status], fun k hk => ?_⟩
    simp [getLsbD_busyReply_status, Nat.ne_of_gt hk]

/-! ### Reset -/

/-- An idle block is cleared, and the stream and the host's side stay (R300). -/
theorem hardReset_idle {s : State} (h : s.pending = none) :
    hardReset s = { State.reset with out := s.out, host := s.host, replies := s.replies, draws := s.draws } := by
  simp only [hardReset, State.clearBlock, h]
  rfl

/-- Of the command that is cut short some first bytes have been emitted; how many is drawn (R300, U3). -/
theorem hardReset_cut {s : State} {w : Word} (h : s.pending = some w) :
    hardReset s = { State.reset with
      out := s.out ++ (emittedBy w { s with pending := none }).take (Config.cutLength s.draws)
      host := s.host, replies := s.replies, draws := s.draws + 1 } := by
  simp only [hardReset, State.clearBlock, h]
  rfl

/-- Settles O14: the reset input is never refused, and what it emits of the command it cuts short is a prefix. -/
theorem resetClearsTheBlock : Obligations.ResetClearsTheBlock := by
  unfold Obligations.ResetClearsTheBlock
  refine ⟨fun s rest hturn => ?_, fun s => rfl⟩
  have hstep : step s = .next (hardReset { s with host := rest }) := step_host hturn
  refine ⟨fun hp => ?_, fun w hp => ?_⟩
  · rw [hstep, hardReset_idle (s := { s with host := rest }) hp]
  · refine ⟨_, List.take_prefix (Config.cutLength s.draws) _, ?_⟩
    rw [hstep, hardReset_cut (s := { s with host := rest }) hp]

/-- Settles O15: the state after reset is a cleared block, and it is not busy. -/
theorem everyRegisterReadsZeroAfterReset : Obligations.EveryRegisterReadsZeroAfterReset := by
  unfold Obligations.EveryRegisterReadsZeroAfterReset
  intro off
  have hreset : State.reset = State.reset.clearBlock := rfl
  rw [hreset]
  by_cases hstatus : 4 ≤ off.toNat ∧ off.toNat ≤ 7
  · rw [regRead_status _ hstatus, statusWord_clearBlock]
    decide
  · exact regRead_clearBlock _ hstatus

end Sys2Proof.Machine
end

section
/-! PROOF. Decoding and encoding agree (30_encoding.md R92 to R98): the round trip over every word and command, and the spec's
own words. -/

namespace Sys2Proof

/-- Settles O2: one direction is `encode_of_decode`, by the fifteen opcodes; the other is `decode_encode`, by the commands. -/
theorem decodeInvertsEncode : Obligations.DecodeInvertsEncode := by
  unfold Obligations.DecodeInvertsEncode
  exact decode_eq_ok_iff

/-- Settles O1: the seven legal words are those `encode` gives their commands. Of the three illegal ones the first fails on
its opcode, the others on the zero bits of their format. -/
theorem specWordsDecode : Obligations.SpecWordsDecode := by
  unfold Obligations.SpecWordsDecode
  have hunassigned : opcField 0x03000000#32 = 0x03#8 := by decide
  have hformatN : decode 0x20000001#32 = formatN 0x20000001#32 .binit := rfl
  have hformatB : decode 0x40610001#32 = formatB 0x40610001#32 .enc := rfl
  refine ⟨decode_encode (.wsetl 0x61#8 0x0003#16), decode_encode (.wseth 0x00#8 0xFFFF#16), decode_encode .build,
    decode_encode .gentab, decode_encode (.enc 0x61#8), decode_encode (.dec 0x31#8), decode_encode .eclr, ?_, ?_, ?_⟩
  · simp [decode, hunassigned]
  · rw [hformatN]
    decide
  · rw [hformatB]
    decide

end Sys2Proof
end
